-- ==== Sys2Proof/Word.lean ====
section
/-! DEFINITION. The word types of the unit (00_scope.md R8): bf16 patterns of 16 bits, operands of 32, results of 64, operation
codes of 4, and the 68-bit request word of 30_encoding.md R70. -/

namespace Sys2Proof

/-- A bf16 encoding: 1 sign bit, 8 exponent bits, 7 mantissa bits (R130). -/
abbrev Bf16 := BitVec 16

/-- An operand port, an integer operand, a Q16.16 value or a table entry (R8). -/
abbrev Word := BitVec 32

/-- A result, as wide as `RSP_R` (R22). -/
abbrev DWord := BitVec 64

/-- An operation code, as wide as `REQ_OP` (R71). -/
abbrev OpCode := BitVec 4

/-- The request word `W`, the concatenation of op, a and b (R70). -/
abbrev ReqWord := BitVec 68

end Sys2Proof
end

