-- ==== Sys2Proof/Syntax.lean ====
section
/-! DEFINITION. Requests and instructions: one constructor of `Instr` for each of the sixteen operation codes of 30_encoding.md
R71 (one per row of spec/opcode_table.json). Every constructor carries both operand ports whole, because the unit samples both
whatever the code is (10_state.md R32); which of their bits an operation reads is said in Machine/Operands.lean (R72). -/

namespace Sys2Proof

/-- One request: the three request ports, sampled together (R70). -/
structure Request where
  /-- `REQ_OP[3:0]` -/
  op : OpCode
  /-- `REQ_A[31:0]` -/
  a : Word
  /-- `REQ_B[31:0]` -/
  b : Word
  deriving DecidableEq, Repr

/-- The operations of the unit (R71), each with the operands `a` and `b` of its request. -/
inductive Instr where
  /-- `0x0` BF16_ADD (R161) -/
  | bf16Add (a b : Word)
  /-- `0x1` BF16_SUB (R162) -/
  | bf16Sub (a b : Word)
  /-- `0x2` BF16_MUL (R188) -/
  | bf16Mul (a b : Word)
  /-- `0x3` BF16_DIV (R209) -/
  | bf16Div (a b : Word)
  /-- `0x4` BF16_ISNAN (R140) -/
  | bf16IsNan (a b : Word)
  /-- `0x5` BF16_ISINF (R141) -/
  | bf16IsInf (a b : Word)
  /-- `0x6` BF16_ISZERO (R142) -/
  | bf16IsZero (a b : Word)
  /-- `0x7`, reserved (R75, R76) -/
  | reserved7 (a b : Word)
  /-- `0x8` IMUL (R101) -/
  | imul (a b : Word)
  /-- `0x9` IDIV (R103) -/
  | idiv (a b : Word)
  /-- `0xA` IMOD (R104) -/
  | imod (a b : Word)
  /-- `0xB` LZC (R107) -/
  | lzc (a b : Word)
  /-- `0xC` RSQRT (R227) -/
  | rsqrt (a b : Word)
  /-- `0xD`, reserved (R75, R76) -/
  | reservedD (a b : Word)
  /-- `0xE`, reserved (R75, R76) -/
  | reservedE (a b : Word)
  /-- `0xF`, reserved (R75, R76) -/
  | reservedF (a b : Word)
  deriving DecidableEq, Repr

end Sys2Proof
end

