-- ==== Sys2Proof/Decode.lean ====
section
/-! DEFINITION. The decoder and the encoder (30_encoding.md R70, R71). `op` alone selects the operation and all sixteen codes
have a meaning, so decoding a request, or a 68-bit request word, is total and refuses nothing. The one thing refused, by name, is
a number that is no 68-bit word. -/

namespace Sys2Proof

/-- The fields of the request word: `W[67:64]` is op, `W[63:32]` is a, `W[31:0]` is b (R70). -/
def Request.ofWord (w : ReqWord) : Request where
  op := w.extractLsb' 64 4
  a := w.extractLsb' 32 32
  b := w.extractLsb' 0 32

/-- The request word of a request, op in its highest bits (R70). -/
def Request.toWord (r : Request) : ReqWord := (r.op ++ r.a) ++ r.b

/-- The operation table of R71. The last arm is the code `0xF` alone: the fifteen others stand above it. -/
def decode (r : Request) : Instr :=
  match r.op with
  | 0x0#4 => .bf16Add r.a r.b
  | 0x1#4 => .bf16Sub r.a r.b
  | 0x2#4 => .bf16Mul r.a r.b
  | 0x3#4 => .bf16Div r.a r.b
  | 0x4#4 => .bf16IsNan r.a r.b
  | 0x5#4 => .bf16IsInf r.a r.b
  | 0x6#4 => .bf16IsZero r.a r.b
  | 0x7#4 => .reserved7 r.a r.b
  | 0x8#4 => .imul r.a r.b
  | 0x9#4 => .idiv r.a r.b
  | 0xA#4 => .imod r.a r.b
  | 0xB#4 => .lzc r.a r.b
  | 0xC#4 => .rsqrt r.a r.b
  | 0xD#4 => .reservedD r.a r.b
  | 0xE#4 => .reservedE r.a r.b
  | _ => .reservedF r.a r.b

/-- The instruction a 68-bit request word stands for (R70, R71). -/
def decodeWord (w : ReqWord) : Instr := decode (Request.ofWord w)

/-- Why a number is no request word. -/
inductive DecodeReject where
  /-- A bit above `W[67]` is set: every request is 68 bits long (R70). -/
  | wordTooWide
  deriving DecidableEq, Repr

/-- Decoding of any number: the instruction of a 68-bit word, a rejection by name of anything wider. -/
def decodeNat (w : Nat) : Except DecodeReject Instr :=
  if w < 2 ^ 68 then .ok (decodeWord (BitVec.ofNat 68 w)) else .error .wordTooWide

/-- The instruction the decoder reads from a row's word, whose `nbits` bits are numbered as spec/opcode_table.json numbers them
(bit 0 the lowest of `W`); every bit above `nbits` is 0. -/
def decodeTableWord (nbits w : Nat) : Option Instr :=
  match decodeNat (w % 2 ^ nbits) with
  | .ok i => some i
  | .error _ => none

/-! ### The encoder -/

/-- The operation code of an instruction (R71). -/
def Instr.opcode : Instr → OpCode
  | .bf16Add _ _ => 0x0#4
  | .bf16Sub _ _ => 0x1#4
  | .bf16Mul _ _ => 0x2#4
  | .bf16Div _ _ => 0x3#4
  | .bf16IsNan _ _ => 0x4#4
  | .bf16IsInf _ _ => 0x5#4
  | .bf16IsZero _ _ => 0x6#4
  | .reserved7 _ _ => 0x7#4
  | .imul _ _ => 0x8#4
  | .idiv _ _ => 0x9#4
  | .imod _ _ => 0xA#4
  | .lzc _ _ => 0xB#4
  | .rsqrt _ _ => 0xC#4
  | .reservedD _ _ => 0xD#4
  | .reservedE _ _ => 0xE#4
  | .reservedF _ _ => 0xF#4

/-- Operand A of an instruction's request (R70). -/
def Instr.portA : Instr → Word
  | .bf16Add a _ | .bf16Sub a _ | .bf16Mul a _ | .bf16Div a _ | .bf16IsNan a _ | .bf16IsInf a _ | .bf16IsZero a _
  | .reserved7 a _ | .imul a _ | .idiv a _ | .imod a _ | .lzc a _ | .rsqrt a _ | .reservedD a _ | .reservedE a _
  | .reservedF a _ => a

/-- Operand B of an instruction's request (R70). -/
def Instr.portB : Instr → Word
  | .bf16Add _ b | .bf16Sub _ b | .bf16Mul _ b | .bf16Div _ b | .bf16IsNan _ b | .bf16IsInf _ b | .bf16IsZero _ b
  | .reserved7 _ b | .imul _ b | .idiv _ b | .imod _ b | .lzc _ b | .rsqrt _ b | .reservedD _ b | .reservedE _ b
  | .reservedF _ b => b

/-- The request that asks for an instruction (R70, R71). -/
def encode (i : Instr) : Request := ⟨i.opcode, i.portA, i.portB⟩

/-- The request word of an instruction. -/
def encodeWord (i : Instr) : ReqWord := (encode i).toWord

/-! ### Reserved codes and the syntax of listings -/

/-- The reserved codes: `0x7`, `0xD`, `0xE`, `0xF` and no other (R75). -/
def Instr.isReserved : Instr → Bool
  | .reserved7 _ _ => true
  | .reservedD _ _ => true
  | .reservedE _ _ => true
  | .reservedF _ _ => true
  | .bf16Add _ _ | .bf16Sub _ _ | .bf16Mul _ _ | .bf16Div _ _ | .bf16IsNan _ _ | .bf16IsInf _ _ | .bf16IsZero _ _
  | .imul _ _ | .idiv _ _ | .imod _ _ | .lzc _ _ | .rsqrt _ _ => false

/-- How a listing writes the operation: its mnemonic, or `.op 0xN` for a reserved code, which has none (R77). -/
def Instr.listingName : Instr → String
  | .bf16Add _ _ => "BF16_ADD"
  | .bf16Sub _ _ => "BF16_SUB"
  | .bf16Mul _ _ => "BF16_MUL"
  | .bf16Div _ _ => "BF16_DIV"
  | .bf16IsNan _ _ => "BF16_ISNAN"
  | .bf16IsInf _ _ => "BF16_ISINF"
  | .bf16IsZero _ _ => "BF16_ISZERO"
  | .reserved7 _ _ => ".op 0x7"
  | .imul _ _ => "IMUL"
  | .idiv _ _ => "IDIV"
  | .imod _ _ => "IMOD"
  | .lzc _ _ => "LZC"
  | .rsqrt _ _ => "RSQRT"
  | .reservedD _ _ => ".op 0xD"
  | .reservedE _ _ => ".op 0xE"
  | .reservedF _ _ => ".op 0xF"

end Sys2Proof
end

