-- ==== Sys2Proof/Machine/Defaults.lean ====
section
/-! DEFINITION. The defaults the spec gives for two OPEN parameters (00_scope.md R8): `CANON_NAN` and `RSQRT_TABLE`. They are the
values `State.reset` starts with (log 4, log 5); every other definition takes the parameter from the state. -/

namespace Sys2Proof.Machine

/-- The default `CANON_NAN`: sign 0, exponent 255, mantissa `0x40` (41_bf16_codec.md R138). -/
def canonNanDefault : Bf16 := 0x7FC0#16

/-- The default `RSQRT_TABLE`: entry `e` is `2^16 / 2^(e/2)` rounded to the nearest integer (45_rsqrt.md R222). -/
def rsqrtTableDefault : Vector Word 32 := #v[
  65536#32, 46341#32, 32768#32, 23170#32, 16384#32, 11585#32, 8192#32, 5793#32,
  4096#32, 2896#32, 2048#32, 1448#32, 1024#32, 724#32, 512#32, 362#32,
  256#32, 181#32, 128#32, 91#32, 64#32, 45#32, 32#32, 23#32,
  16#32, 11#32, 8#32, 6#32, 4#32, 3#32, 2#32, 1#32]

end Sys2Proof.Machine
end

