-- ==== Sys2Proof/Machine/State.lean ====
section
/-! DEFINITION. The machine's state: the state elements of 10_state.md R23, the input ports of R21 as the host will drive them,
and three fields of the model's own. All of it is plain data. -/

namespace Sys2Proof.Machine

/-- The transaction state `ST` (R29). Its two-bit codes are in Machine/Ports.lean. -/
inductive St where
  /-- `0b00`: the unit waits for a request. -/
  | idle
  /-- `0b01`: an operation is in flight. -/
  | busy
  /-- `0b10`: a response is present. -/
  | done
  /-- `0b11`: never reached from reset. The model keeps the value and faults on it (R29, U7; log 7). -/
  | eleven
  deriving DecidableEq, Repr

/-- The values the host drives on the input ports at one rising edge (R21). -/
structure Inputs where
  /-- `RST`: synchronous reset, active high. -/
  rst : Bool
  /-- `REQ_VALID`: the host presents an operation. -/
  reqValid : Bool
  /-- `REQ_OP` -/
  reqOp : OpCode
  /-- `REQ_A` -/
  reqA : Word
  /-- `REQ_B` -/
  reqB : Word
  /-- `RSP_READY`: the host takes the response. -/
  rspReady : Bool
  deriving DecidableEq, Repr

/-- The whole state of one unit and of what its host is about to drive. -/
structure State where
  /-- `ST` (R23, R29) -/
  st : St
  /-- `OP_Q`, the operation code sampled at the accepting edge (R23, R32) -/
  opQ : OpCode
  /-- `A_Q`, operand A sampled at the accepting edge (R23, R32) -/
  aQ : Word
  /-- `B_Q`, operand B sampled at the accepting edge (R23, R32) -/
  bQ : Word
  /-- `R_Q`, the result (R23, R33) -/
  rQ : DWord
  /-- `FLAG_Q`, the predicate result (R23, R33) -/
  flagQ : Bool
  /-- `ILLEGAL_Q`, set for a reserved code (R23, R33) -/
  illegalQ : Bool
  /-- `ROM[0..31]`, the constant reciprocal-square-root table `RSQRT_TABLE` (R23, R28). No step writes it. -/
  rom : Vector Word 32
  /-- The OPEN parameter `CANON_NAN` (41_bf16_codec.md R138, U1; log 4). The model's own field; no step writes it. -/
  canonNan : Bf16
  /-- How many more edges of `BUSY` pass before the completing edge (R33, R37; log 6). The model's own field. -/
  edgesLeft : Nat
  /-- What the host drives on the input ports at the rising edges to come, first the next edge (R21; log 1). Past the end of the
  list every port is 0. The model's own form of the ports. -/
  inputs : List Inputs
  /-- How many edges have passed: the index of the free values on the response ports (R31, U5; log 8). The model's own field. -/
  edges : Nat
  deriving DecidableEq, Repr

/-- Why the machine stops with a fault. -/
inductive Fault where
  /-- `ST` holds `0b11` at an edge without reset. Raised by `step` alone. Safe: the spec says that the value is never reached from
  reset and that a model which keeps it faults on it (R29, U7; log 7). -/
  | stEleven
  deriving DecidableEq, Repr

/-- Why the machine refuses. -/
inductive Refusal where
  /-- An arm of `exec` that has no meaning yet. No arm raises it: every instruction has its meaning. Safe. -/
  | notModelled (mnemonic : String)
  deriving DecidableEq, Repr

/-- The state after a reset edge (R36): `ST = IDLE` and `ROM` the table. The latched registers are unspecified there; the model
names 0 for each (DESIGN CHOICE, log 3). `CANON_NAN` and `RSQRT_TABLE` are at the defaults of 00_scope.md R8 (log 4, log 5). The
host drives nothing (log 1). -/
def State.reset : State where
  st := .idle
  opQ := 0#4
  aQ := 0#32
  bQ := 0#32
  rQ := 0#64
  flagQ := false
  illegalQ := false
  rom := rsqrtTableDefault
  canonNan := canonNanDefault
  edgesLeft := 0
  inputs := []
  edges := 0

end Sys2Proof.Machine
end

