-- ==== Sys2Proof/Machine/Codec.lean ====
section
/-! DEFINITION. The bf16 codec and classifier (41_bf16_codec.md R130 to R139): internal functions of the unit, with no operation
codes of their own but for the three predicates (R144). -/

namespace Sys2Proof.Machine

/-- `v[15]`: 0 positive, 1 negative (R131). -/
def sign (v : Bf16) : BitVec 1 := v.extractLsb' 15 1

/-- `v[14:7]`, the biased exponent field, 0 to 255 (R132). -/
def exponent (v : Bf16) : Nat := (v.extractLsb' 7 8).toNat

/-- `v[6:0]`, the stored fraction without the implicit bit, 0 to 127 (R133). -/
def mantissa (v : Bf16) : Nat := (v.extractLsb' 0 7).toNat

/-- A pattern from its fields, each masked to its width (R134): an implicit bit at bit 7 of `m` is dropped here. -/
def pack (s : BitVec 1) (e : Int) (m : Nat) : Bf16 := (s ++ BitVec.ofInt 8 e) ++ BitVec.ofNat 7 m

/-- R135: exponent field 255 and a nonzero mantissa, of either sign. -/
def isNan (v : Bf16) : Bool := exponent v == 255 && mantissa v != 0

/-- R136: exponent field 255 and mantissa 0, of either sign. -/
def isInf (v : Bf16) : Bool := exponent v == 255 && mantissa v == 0

/-- R137: exponent field 0 and mantissa 0, of either sign. -/
def isZero (v : Bf16) : Bool := exponent v == 0 && mantissa v == 0

/-- R139: exponent field 0 and a nonzero mantissa. Not exposed as an operation. -/
def isSubnormal (v : Bf16) : Bool := exponent v == 0 && mantissa v != 0

/-- R139: exponent field 1 to 254. Not exposed as an operation. -/
def isNormal (v : Bf16) : Bool := decide (1 ≤ exponent v) && decide (exponent v ≤ 254)

/-- `INF(s)` (00_scope.md R12). -/
def infinity (s : BitVec 1) : Bf16 := pack s 255 0

/-- `ZERO(s)` (00_scope.md R12). -/
def signedZero (s : BitVec 1) : Bf16 := pack s 0 0

/-- The working mantissa with the implicit bit of a normal value restored; a subnormal's is used as it is (42_bf16_add.md R155,
44_bf16_div.md R204). -/
def restoredMantissa (v : Bf16) : Nat := if exponent v ≠ 0 then mantissa v ||| 0x80 else mantissa v

end Sys2Proof.Machine
end

