-- ==== Sys2Proof/Machine/Flags.lean ====
section
/-! DEFINITION. The unit's only flag, `FLAG`, and the `ILLEGAL` bit (10_state.md R25, 30_encoding.md R73). There are no condition
codes, no overflow flag and no sticky exception flags (60_exceptions.md R240). -/

namespace Sys2Proof.Machine

/-- `FLAG` of a classifier: its predicate (R25). -/
def flagOfPredicate (p : Bool) : Bool := p

/-- `FLAG` of every other operation, and of a reserved code (R25). -/
def flagNone : Bool := false

/-- `ILLEGAL` of a defined operation (R73). -/
def notIllegal : Bool := false

/-- `ILLEGAL` of a reserved code (R76). -/
def illegalOp : Bool := true

end Sys2Proof.Machine
end

