-- ==== Sys2Proof/Machine/Operands.lean ====
section
/-! DEFINITION. Operand assembly (30_encoding.md R72) and result placement (R73): which bits of a port an operation reads, and
where a result stands in `R[63:0]`. Nothing is sign-extended, scaled or shifted on the way in. -/

namespace Sys2Proof.Machine

/-- A bf16 operand is the low half of its port; the high half is ignored (R72). -/
def bf16Operand (port : Word) : Bf16 := port.extractLsb' 0 16

/-- An integer operand is the whole port, unsigned (R72). -/
def intOperand (port : Word) : Word := port

/-- A bf16 result stands in `R[15:0]`, with zeros above (R73). -/
def bf16Result (v : Bf16) : DWord := v.setWidth 64

/-- A 32-bit result stands in `R[31:0]`, with zeros above (R73). -/
def wordResult (v : Word) : DWord := v.setWidth 64

/-- A predicate stands in `R[0]`, with zeros above (R73). -/
def predicateResult (p : Bool) : DWord := if p then 1#64 else 0#64

/-- A pair of 32-bit results: `high` in `R[63:32]`, `low` in `R[31:0]` (R73, R74). -/
def pairResult (high low : Word) : DWord := high ++ low

end Sys2Proof.Machine
end

