-- ==== Sys2Proof/Machine/Ops.lean ====
section
/-! DEFINITION. The named operations over the state: reading the table, writing the response (completion, 10_state.md R33), and
the illegal response (30_encoding.md R76), which is all this unit has in the place of an exception: there is no trap entry and no
return from one (60_exceptions.md R244, R245). -/

namespace Sys2Proof.Machine

/-- `ROM[i]`, read whole-entry (20_memory.md R51). -/
def romEntry (rom : Vector Word 32) (i : Fin 32) : Word := rom[i]

/-- Completion (R33): the response registers are written and `ST` becomes `DONE`. Nothing else changes. -/
def State.complete (s : State) (r : DWord) (flag illegal : Bool) : State :=
  { s with rQ := r, flagQ := flag, illegalQ := illegal, st := .done }

/-- `raise IllegalOp()` (R76): the operation completes normally, with `R = 0`, `FLAG = 0`, `ILLEGAL = 1`. -/
def State.completeIllegal (s : State) : State := s.complete 0#64 flagNone illegalOp

end Sys2Proof.Machine
end

