-- ==== Sys2Proof/Machine/Bf16Add.lean ====
section
/-! DEFINITION. BF16_ADD and BF16_SUB (42_bf16_add.md). `bf16Add` is R150 step by step; nothing rounds, every bit shifted out is
discarded (R151). `CANON_NAN` is an argument (R138). -/

namespace Sys2Proof.Machine

/-- The left normalisation of step 6 (R158): shift, then decrement, then test; `none` is the underflow to zero. The first argument
bounds the loop: a nonzero difference needs at most 7 shifts (`normaliseLeft_done` in Laws/Bf16.lean; log 14). -/
def normaliseLeft : Nat → Nat → Int → Option (Nat × Int)
  | 0, rm, re => some (rm, re)
  | k + 1, rm, re =>
    if rm < 0x80 then
      if re - 1 ≤ 0 then none else normaliseLeft k (rm <<< 1) (re - 1)
    else some (rm, re)

/-- Step 5, same sign (R157): overflow gives `CANON_NAN`, whatever the sign. Bit 7 is not tested. -/
def addSameSign (canonNan : Bf16) (rs : BitVec 1) (rm : Nat) (re : Int) : Bf16 :=
  if 0x100 ≤ rm then
    if 255 ≤ re + 1 then canonNan else pack rs (re + 1) (rm >>> 1)
  else pack rs re rm

/-- The left normalisation and the pack that ends step 6. -/
def packNormalised (rs : BitVec 1) (rm : Nat) (re : Int) : Bf16 :=
  match normaliseLeft 7 rm re with
  | none => 0x0000#16
  | some (m, e) => pack rs e m

/-- Step 6 from the difference `rm` on (R158). The right normalisation is never taken: a difference has no bit 8. It stands here
because R150 keeps it. -/
def addDifference (canonNan : Bf16) (rs : BitVec 1) (rm : Nat) (re : Int) : Bf16 :=
  if rm = 0 then 0x0000#16
  else if 0x100 ≤ rm then
    if 255 ≤ re + 1 then canonNan else packNormalised rs (rm >>> 1) (re + 1)
  else packNormalised rs rm re

/-- Steps 5 to 7 on aligned mantissas: the sign of a difference follows the larger mantissa (R157 to R159). -/
def addAligned (canonNan : Bf16) (sa sb : BitVec 1) (ma mb : Nat) (re : Int) : Bf16 :=
  if sa = sb then addSameSign canonNan sa (ma + mb) re
  else if mb ≤ ma then addDifference canonNan sa (ma - mb) re
  else addDifference canonNan sb (mb - ma) re

/-- Steps 3 to 7: restored mantissas, aligned on the raw exponent fields (R155, R156). A difference above 8 returns the larger
operand's pattern. -/
def addFinite (canonNan a b : Bf16) : Bf16 :=
  let ea : Int := exponent a
  let eb : Int := exponent b
  let ma := restoredMantissa a
  let mb := restoredMantissa b
  let d := ea - eb
  if 0 < d then
    if 8 < d then a else addAligned canonNan (sign a) (sign b) ma (mb >>> d.toNat) ea
  else if d < 0 then
    if d < -8 then b else addAligned canonNan (sign a) (sign b) (ma >>> (-d).toNat) mb eb
  else addAligned canonNan (sign a) (sign b) ma mb ea

/-- `bf16_add(a, b)` (R150): the special values and the zeros in the order of R152 to R154, then the arithmetic. -/
def bf16Add (canonNan a b : Bf16) : Bf16 :=
  if isNan a then a
  else if isNan b then b
  else if isInf a then
    if isInf b && sign a != sign b then canonNan else a
  else if isInf b then b
  else if isZero a then b
  else if isZero b then a
  else addFinite canonNan a b

/-- `bf16_sub(a, b)` (R160): the sign bit of `b` is flipped before every test of R150. -/
def bf16Sub (canonNan a b : Bf16) : Bf16 := bf16Add canonNan a (b ^^^ 0x8000#16)

/-- BF16_ADD (R161). -/
def execBf16Add (a b : Word) (s : State) : Host.Outcome State Fault Refusal :=
  .next (s.complete (bf16Result (bf16Add s.canonNan (bf16Operand a) (bf16Operand b))) flagNone notIllegal)

/-- BF16_SUB (R162). -/
def execBf16Sub (a b : Word) (s : State) : Host.Outcome State Fault Refusal :=
  .next (s.complete (bf16Result (bf16Sub s.canonNan (bf16Operand a) (bf16Operand b))) flagNone notIllegal)

end Sys2Proof.Machine
end

