-- ==== Sys2Proof/Machine/Bf16Div.lean ====
section
/-! DEFINITION. BF16_DIV (44_bf16_div.md). `bf16Div` is R200 step by step, with `CANON_NAN` as an argument (R138). -/

namespace Sys2Proof.Machine

/-- R205's loop with `k` iterations left: iteration `i = 16 - k` compares with the divisor shifted left by `15 - i = k - 1`, and
subtracts at most once. -/
def quotientLoop (mb : Nat) : Nat → Nat → Nat → Nat
  | 0, _, q => q
  | k + 1, n, q =>
    if mb <<< k ≤ n then quotientLoop mb k (n - (mb <<< k)) ((q <<< 1) ||| 1) else quotientLoop mb k n (q <<< 1)

/-- The 16-bit quotient of the dividend mantissa, shifted left by 15, by the divisor mantissa (R205). -/
def divQuotient (ma mb : Nat) : Nat := quotientLoop mb 16 (ma <<< 15) 0

/-- The left normalisation of R207: until bit 15 is set or the exponent reaches 1. The first argument bounds the loop: a nonzero
quotient needs at most 15 shifts (`normaliseQuotient_done` in Laws/Bf16.lean; log 14). -/
def normaliseQuotient : Nat → Nat → Int → Nat × Int
  | 0, q, re => (q, re)
  | k + 1, q, re => if q < 0x8000 ∧ 1 < re then normaliseQuotient k (q <<< 1) (re - 1) else (q, re)

/-- Overflow and underflow (R208): no subnormal result. -/
def divRange (rs : BitVec 1) (rm : Nat) (re : Int) : Bf16 :=
  if 255 ≤ re then infinity rs else if re ≤ 0 then signedZero rs else pack rs re rm

/-- The exponent before normalisation (R206): 1 less for a subnormal dividend, 1 more for a subnormal divisor. -/
def divExponent (a b : Bf16) : Int :=
  let re := (exponent a : Int) - exponent b + 127
  let re := if exponent a = 0 then re - 1 else re
  if exponent b = 0 then re + 1 else re

/-- The quotient of finite nonzero operands (R204 to R208). -/
def divFinite (rs : BitVec 1) (a b : Bf16) : Bf16 :=
  let q := divQuotient (restoredMantissa a) (restoredMantissa b)
  let re := divExponent a b
  if 0x8000 ≤ q then divRange rs ((q >>> 8) &&& 0x7F) re
  else
    let n := normaliseQuotient 15 q re
    divRange rs ((n.1 >>> 8) &&& 0x7F) n.2

/-- `bf16_div(a, b)` (R200): NaN operands, then the special values in the order of R203, then the quotient. -/
def bf16Div (canonNan a b : Bf16) : Bf16 :=
  let rs := sign a ^^^ sign b
  if isNan a then a
  else if isNan b then b
  else if isInf b then
    if isInf a then canonNan else signedZero rs
  else if isZero b then
    if isZero a then canonNan else infinity rs
  else if isInf a then infinity rs
  else if isZero a then signedZero rs
  else divFinite rs a b

/-- BF16_DIV (R209): `a` is the dividend. -/
def execBf16Div (a b : Word) (s : State) : Host.Outcome State Fault Refusal :=
  .next (s.complete (bf16Result (bf16Div s.canonNan (bf16Operand a) (bf16Operand b))) flagNone notIllegal)

end Sys2Proof.Machine
end

