-- ==== Sys2Proof/Machine/IntPrim.lean ====
section
/-! DEFINITION. The integer primitives as functions (40_integer.md R100, R102, R106), each the loop the source gives. The bf16
multiply and RSQRT use them too. The operations that expose them are in Machine/Integer.lean. -/

namespace Sys2Proof.Machine

/-- The first `k` iterations of R100's loop: the sum of `a << i` over the set bits `i < k` of `b`, in a 64-bit accumulator. -/
def imulAcc (a b : Word) : Nat → DWord
  | 0 => 0#64
  | k + 1 => if b.getLsbD k then imulAcc a b k + (a.setWidth 64 <<< k) else imulAcc a b k

/-- `imul(a, b)`, the unsigned product as a 64-bit value, by 32 iterations of shift-add (R100). -/
def imul (a b : Word) : DWord := imulAcc a b 32

/-- R102's loop with `k` iterations left, which bring in the dividend bits `k - 1` down to 0: from the partial remainder `r` and
the quotient bits `q` found so far, the final quotient and remainder. -/
def restoringLoop (n d : Nat) : Nat → Nat → Nat → Nat × Nat
  | 0, q, r => (q, r)
  | k + 1, q, r =>
    let shifted := (r <<< 1) ||| ((n >>> k) % 2)
    if d ≤ shifted then restoringLoop n d k (q ||| (1 <<< k)) (shifted - d) else restoringLoop n d k q shifted

/-- `udivmod(n, d)`: quotient and remainder by 32-bit restoring long division, both 0 when `d = 0` (R102, R105). -/
def udivmod (n d : Word) : Word × Word :=
  if d = 0#32 then (0#32, 0#32)
  else
    let qr := restoringLoop n.toNat d.toNat 32 0 0
    (BitVec.ofNat 32 qr.1, BitVec.ofNat 32 qr.2)

/-- The largest `i < k` with `x[i] = 1`, if there is one. -/
def topSetBit (x : Word) : Nat → Option Nat
  | 0 => none
  | k + 1 => if x.getLsbD k then some k else topSetBit x k

/-- `lzc(x)`: the number of zero bits above the most significant 1 bit, 32 when `x = 0` (R106). -/
def lzc (x : Word) : Nat :=
  match topSetBit x 32 with
  | none => 32
  | some m => 31 - m

/-- One step of R106's informative binary-search form: where the top `w` bits of `x` are all 0, count them and shift them out. -/
def lzcHalve (w : Nat) (nx : Nat × Word) : Nat × Word :=
  if nx.2 >>> (32 - w) = 0#32 then (nx.1 + w, nx.2 <<< w) else nx

/-- The binary-search form of the count (R106, informative): 16, 8, 4, 2 and 1 bits in turn. -/
def lzcBinarySearch (x : Word) : Nat :=
  (lzcHalve 1 (lzcHalve 2 (lzcHalve 4 (lzcHalve 8 (lzcHalve 16 (0, x)))))).1

end Sys2Proof.Machine
end

