-- ==== Sys2Proof/Machine/Bf16Mul.lean ====
section
/-! DEFINITION. BF16_MUL (43_bf16_mul.md). `bf16Mul` is R180 step by step, with `CANON_NAN` as an argument (R138). -/

namespace Sys2Proof.Machine

/-- The operand loop of R183: shift a subnormal mantissa left until bit 7 is set, taking 1 from `adj` at each shift. The first
argument bounds the loop: a nonzero mantissa needs at most 7 shifts (`shiftUntilLeading_done` in Laws/Bf16.lean; log 14). -/
def shiftUntilLeading : Nat → Nat → Int → Nat × Int
  | 0, m, adj => (m, adj)
  | k + 1, m, adj => if m < 0x80 then shiftUntilLeading k (m <<< 1) (adj - 1) else (m, adj)

/-- An operand of the product: its 8-bit mantissa, its exponent, its share of the exponent adjustment. -/
structure MulOperand where
  /-- the working mantissa -/
  man : Nat
  /-- the exponent taken for it -/
  exp : Int
  /-- minus the number of shifts -/
  adj : Int
  deriving DecidableEq, Repr

/-- Operand normalisation (R183): a subnormal is shifted and takes exponent 1; a normal keeps its field and gets its implicit
bit. -/
def mulOperand (v : Bf16) : MulOperand :=
  if exponent v = 0 then
    let ma := shiftUntilLeading 7 (mantissa v) 0
    ⟨ma.1, 1, ma.2⟩
  else ⟨mantissa v ||| 0x80, exponent v, 0⟩

/-- Overflow (R186), underflow (R187) and pack. A subnormal result is the 7-bit `rm`, without its leading 1, shifted right. -/
def mulRange (rs : BitVec 1) (rm : Nat) (re : Int) : Bf16 :=
  if 255 ≤ re then infinity rs
  else if re ≤ 0 then
    if re < -6 then signedZero rs else pack rs 0 (rm >>> (1 - re).toNat)
  else pack rs re rm

/-- The product of finite nonzero operands (R183 to R187): truncated by 8 places with an increment of the exponent where bit 15 of
the product is set, by 7 otherwise, and masked to 7 bits at once (R185). -/
def mulFinite (rs : BitVec 1) (a b : Bf16) : Bf16 :=
  let x := mulOperand a
  let y := mulOperand b
  let p := (imul (BitVec.ofNat 32 x.man) (BitVec.ofNat 32 y.man)).toNat
  let re := x.exp + y.exp - 127 + (x.adj + y.adj)
  if 0x8000 ≤ p then mulRange rs ((p >>> 8) &&& 0x7F) (re + 1) else mulRange rs ((p >>> 7) &&& 0x7F) re

/-- `bf16_mul(a, b)` (R180): the special values in the order of R182, then the product. -/
def bf16Mul (canonNan a b : Bf16) : Bf16 :=
  let rs := sign a ^^^ sign b
  if isNan a then a
  else if isNan b then b
  else if isInf a then
    if isZero b then canonNan else infinity rs
  else if isInf b then
    if isZero a then canonNan else infinity rs
  else if isZero a || isZero b then signedZero rs
  else mulFinite rs a b

/-- BF16_MUL (R188). -/
def execBf16Mul (a b : Word) (s : State) : Host.Outcome State Fault Refusal :=
  .next (s.complete (bf16Result (bf16Mul s.canonNan (bf16Operand a) (bf16Operand b))) flagNone notIllegal)

end Sys2Proof.Machine
end

