-- ==== Sys2Proof/Machine/Classify.lean ====
section
/-! DEFINITION. The classifiers BF16_ISNAN, BF16_ISINF and BF16_ISZERO (41_bf16_codec.md R140 to R142): the predicate in `R[0]` and
in `FLAG`. A NaN operand is classified, not signalled. -/

namespace Sys2Proof.Machine

/-- The response of a classifier with predicate `p` (R73). -/
def State.completePredicate (s : State) (p : Bool) : State := s.complete (predicateResult p) (flagOfPredicate p) notIllegal

/-- BF16_ISNAN (R140). -/
def execBf16IsNan (a _b : Word) (s : State) : Host.Outcome State Fault Refusal :=
  .next (s.completePredicate (isNan (bf16Operand a)))

/-- BF16_ISINF (R141). -/
def execBf16IsInf (a _b : Word) (s : State) : Host.Outcome State Fault Refusal :=
  .next (s.completePredicate (isInf (bf16Operand a)))

/-- BF16_ISZERO (R142). -/
def execBf16IsZero (a _b : Word) (s : State) : Host.Outcome State Fault Refusal :=
  .next (s.completePredicate (isZero (bf16Operand a)))

end Sys2Proof.Machine
end

