-- ==== Sys2Proof/Machine/Integer.lean ====
section
/-! DEFINITION. The integer operations IMUL, IDIV, IMOD and LZC (40_integer.md R101, R103, R104, R107). None writes `FLAG`, raises
`ILLEGAL` or reads any state but its operands (R108). -/

namespace Sys2Proof.Machine

/-- IMUL (R101): the 64-bit product. -/
def execImul (a b : Word) (s : State) : Host.Outcome State Fault Refusal :=
  .next (s.complete (imul (intOperand a) (intOperand b)) flagNone notIllegal)

/-- IDIV (R103): the remainder in `R[63:32]`, the quotient in `R[31:0]`. -/
def execIdiv (a b : Word) (s : State) : Host.Outcome State Fault Refusal :=
  let qr := udivmod (intOperand a) (intOperand b)
  .next (s.complete (pairResult qr.2 qr.1) flagNone notIllegal)

/-- IMOD (R104): the remainder alone. -/
def execImod (a b : Word) (s : State) : Host.Outcome State Fault Refusal :=
  let qr := udivmod (intOperand a) (intOperand b)
  .next (s.complete (wordResult qr.2) flagNone notIllegal)

/-- LZC (R107): the count, 0 to 32; operand B is ignored. -/
def execLzc (a _b : Word) (s : State) : Host.Outcome State Fault Refusal :=
  .next (s.complete (wordResult (BitVec.ofNat 32 (lzc (intOperand a)))) flagNone notIllegal)

end Sys2Proof.Machine
end

