-- ==== Sys2Proof/Machine/Reserved.lean ====
section
/-! DEFINITION. The reserved codes (30_encoding.md R75, R76; 60_exceptions.md R241): each completes with the illegal response, a
next state like any other, and reads neither operand. -/

namespace Sys2Proof.Machine

/-- The code `0x7`. -/
def execReserved7 (_a _b : Word) (s : State) : Host.Outcome State Fault Refusal := .next s.completeIllegal

/-- The code `0xD`. -/
def execReservedD (_a _b : Word) (s : State) : Host.Outcome State Fault Refusal := .next s.completeIllegal

/-- The code `0xE`. -/
def execReservedE (_a _b : Word) (s : State) : Host.Outcome State Fault Refusal := .next s.completeIllegal

/-- The code `0xF`. -/
def execReservedF (_a _b : Word) (s : State) : Host.Outcome State Fault Refusal := .next s.completeIllegal

end Sys2Proof.Machine
end

