-- ==== Sys2Proof/Machine/Rsqrt.lean ====
section
/-! DEFINITION. RSQRT, the fixed-point reciprocal square root (45_rsqrt.md). `rsqrt` is R220 step by step, with the table `ROM` as an
argument (R222). The input is read as an unsigned integer, the output as Q16.16 (R226). -/

namespace Sys2Proof.Machine

/-- The position of the most significant set bit, `31 - lzc(x)` (R223), as an index of the table. -/
def topBitIndex (x : Word) : Fin 32 := ⟨31 - lzc x, by omega⟩

/-- The entry that step 4 interpolates toward: the next one, or 0 at the top of the table (R224). -/
def nextEntry (rom : Vector Word 32) (e : Fin 32) : Word :=
  if h : e.val < 31 then romEntry rom ⟨e.val + 1, by omega⟩ else 0#32

/-- The fractional position of `x` in `[2^e, 2^(e+1))`, scaled by `2^16`, computed exactly (R224). -/
def fraction (x : Word) (e : Nat) : Nat := ((x.toNat - (1 <<< e)) <<< 16) >>> e

/-- Step 4's interpolation: every 32-bit subtraction is taken modulo `2^32` (R224). -/
def interpolate (y yNext : Word) (frac : Nat) : Word :=
  y - (imul (y - yNext) (BitVec.ofNat 32 frac) >>> 16).setWidth 32

/-- Steps 3 and 4: the table's entry for an exact power of two, the interpolated guess for any other input. -/
def initialGuess (rom : Vector Word 32) (x : Word) : Word :=
  let e := topBitIndex x
  let y := romEntry rom e
  if x ≠ 1#32 <<< e.val then interpolate y (nextEntry rom e) (fraction x e.val) else y

/-- One Newton-Raphson pass: the three lines of R220's step 5 (R225). -/
def newtonPass (x y : Word) : Word :=
  let y2 := (imul y y).setWidth 32
  let xy2 := (imul x y2 >>> 16).setWidth 32
  (imul y ((3#32 <<< 16) - xy2) >>> 17).setWidth 32

/-- `rsqrt(x)` (R220): the special inputs (R221), then the guess and exactly two passes. -/
def rsqrt (rom : Vector Word 32) (x : Word) : Word :=
  if x = 0#32 then 0xFFFFFFFF#32
  else if x = 1#32 then 65536#32
  else newtonPass x (newtonPass x (initialGuess rom x))

/-- RSQRT (R227); operand B is ignored. -/
def execRsqrt (a _b : Word) (s : State) : Host.Outcome State Fault Refusal :=
  .next (s.complete (wordResult (rsqrt s.rom (intOperand a))) flagNone notIllegal)

end Sys2Proof.Machine
end

