-- ==== Sys2Proof/Machine/Dispatch.lean ====
section
/-! DEFINITION. The dispatch: one arm for each operation code of 30_encoding.md R71. `exec i s` is the completing edge of
operation `i` (10_state.md R33): it writes the response of `F` (30_encoding.md R74) and sets `ST = DONE`. -/

namespace Sys2Proof.Machine

def exec (i : Instr) (s : State) : Host.Outcome State Fault Refusal :=
  match i with
  | .bf16Add a b => Sys2Proof.Machine.execBf16Add a b s
  | .bf16Sub a b => Sys2Proof.Machine.execBf16Sub a b s
  | .bf16Mul a b => Sys2Proof.Machine.execBf16Mul a b s
  | .bf16Div a b => Sys2Proof.Machine.execBf16Div a b s
  | .bf16IsNan a b => Sys2Proof.Machine.execBf16IsNan a b s
  | .bf16IsInf a b => Sys2Proof.Machine.execBf16IsInf a b s
  | .bf16IsZero a b => Sys2Proof.Machine.execBf16IsZero a b s
  | .reserved7 a b => Sys2Proof.Machine.execReserved7 a b s
  | .imul a b => Sys2Proof.Machine.execImul a b s
  | .idiv a b => Sys2Proof.Machine.execIdiv a b s
  | .imod a b => Sys2Proof.Machine.execImod a b s
  | .lzc a b => Sys2Proof.Machine.execLzc a b s
  | .rsqrt a b => Sys2Proof.Machine.execRsqrt a b s
  | .reservedD a b => Sys2Proof.Machine.execReservedD a b s
  | .reservedE a b => Sys2Proof.Machine.execReservedE a b s
  | .reservedF a b => Sys2Proof.Machine.execReservedF a b s

end Sys2Proof.Machine
end

