-- ==== Sys2Proof/Config.lean ====
section
/-! DEFINITION. What the spec leaves open and gives no default for. Each constant is opaque and has no body: nothing can be proved
about its value, so every statement holds whatever it is. (The two OPEN parameters that have a default, `CANON_NAN` and
`RSQRT_TABLE`, are fields of the state: log 4, log 5.) -/

namespace Sys2Proof.Config

/-- How many edges of `BUSY` pass before the completing edge, per operation code. -/
opaque extraLatency : OpCode → Nat

/-- `LATENCY(op)`: the OPEN parameter of 10_state.md R37, an integer of 1 or more for each code. DESIGN CHOICE (log 6): the
parameter form of R37, any positive function. -/
def latency (op : OpCode) : Nat := extraLatency op + 1

/-- What `RSP_R` shows at an edge where no response is present (10_state.md R31, U5; log 8). -/
opaque freeRspR : Nat → DWord

/-- What `RSP_FLAG` shows at an edge where no response is present (10_state.md R31, U5; log 8). -/
opaque freeRspFlag : Nat → Bool

/-- What `RSP_ILLEGAL` shows at an edge where no response is present (10_state.md R31, U5; log 8). -/
opaque freeRspIllegal : Nat → Bool

end Sys2Proof.Config
end

