-- ==== Sys2Proof/Machine/Ports.lean ====
section
/-! DEFINITION. What the host sees: the codes of `ST` (10_state.md R29), the output ports (R22, R30, R31) and the observable
behaviour at an edge (R38). -/

namespace Sys2Proof.Machine

/-- The two-bit value of `ST` (R29). -/
def stCode : St → BitVec 2
  | .idle => 0b00#2
  | .busy => 0b01#2
  | .done => 0b10#2
  | .eleven => 0b11#2

/-- The values on the output ports (R22). -/
structure Outputs where
  /-- `REQ_READY` -/
  reqReady : Bool
  /-- `RSP_VALID` -/
  rspValid : Bool
  /-- `RSP_R` -/
  rspR : DWord
  /-- `RSP_FLAG` -/
  rspFlag : Bool
  /-- `RSP_ILLEGAL` -/
  rspIllegal : Bool
  deriving DecidableEq, Repr

/-- `REQ_READY = (ST == IDLE)` (R30). -/
def State.reqReady (s : State) : Bool := decide (s.st = .idle)

/-- `RSP_VALID = (ST == DONE)` (R30). -/
def State.rspValid (s : State) : Bool := decide (s.st = .done)

/-- The output ports (R30, R31). While no response is present the three response ports show free values, which may differ from
edge to edge (U5; log 8). -/
def State.outputs (s : State) : Outputs where
  reqReady := s.reqReady
  rspValid := s.rspValid
  rspR := if s.rspValid then s.rQ else Config.freeRspR s.edges
  rspFlag := if s.rspValid then s.flagQ else Config.freeRspFlag s.edges
  rspIllegal := if s.rspValid then s.illegalQ else Config.freeRspIllegal s.edges

/-- The values the host drives at the next edge; past the end of the list, every port at 0 (R21; log 1). -/
def State.pins (s : State) : Inputs :=
  match s.inputs with
  | [] => ⟨false, false, 0#4, 0#32, 0#32, false⟩
  | p :: _ => p

/-- A response: the triple the host takes as one transfer (R38, 20_memory.md R55). -/
structure Response where
  /-- `RSP_R` -/
  r : DWord
  /-- `RSP_FLAG` -/
  flag : Bool
  /-- `RSP_ILLEGAL` -/
  illegal : Bool
  deriving DecidableEq, Repr

/-- The response the host takes at the next edge, if it takes one there (R34, R38). -/
def State.takenResponse (s : State) : Option Response :=
  if s.rspValid && !s.pins.rst && s.pins.rspReady then some ⟨s.outputs.rspR, s.outputs.rspFlag, s.outputs.rspIllegal⟩ else none

end Sys2Proof.Machine
end

