-- ==== Sys2Proof/Machine/Edge.lean ====
section
/-! DEFINITION. The transaction layer: what one rising edge does (10_state.md R32 to R36, R39). `Step.lean` calls these and
`exec`. -/

namespace Sys2Proof.Machine

/-- The kinds of rising edge of R39. -/
inductive EdgeKind where
  /-- `RST = 1` (R36) -/
  | reset
  /-- nothing changes: no request in `IDLE` (R32), or a response held in `DONE` (R34) -/
  | hold
  /-- a request is accepted (R32) -/
  | accept
  /-- an edge of `BUSY` before the completing one (R33) -/
  | wait
  /-- the completing edge (R33) -/
  | complete
  /-- the response is taken (R34) -/
  | take
  /-- `ST = 0b11` without reset (R29, U7) -/
  | eleven
  deriving DecidableEq, Repr

/-- Which kind the next edge is (R39). Reset comes before everything else (R36). -/
def State.edgeKind (s : State) : EdgeKind :=
  if s.pins.rst then .reset
  else
    match s.st with
    | .idle => if s.pins.reqValid then .accept else .hold
    | .busy => if s.edgesLeft = 0 then .complete else .wait
    | .done => if s.pins.rspReady then .take else .hold
    | .eleven => .eleven

/-- The latched request (R23, R33). -/
def State.request (s : State) : Request := ⟨s.opQ, s.aQ, s.bQ⟩

/-- What every edge does to the model's own fields: the host's entry for this edge is used up, and the edge is counted. -/
def State.endEdge (s : State) : State := { s with inputs := s.inputs.tail, edges := s.edges + 1 }

/-- A reset edge (R36, R270): `ST` becomes `IDLE`; the latched registers keep what they hold; nothing is in flight (log 9). -/
def State.resetEdge (s : State) : State := { s with st := .idle, edgesLeft := 0 }

/-- Acceptance (R32): the request ports are sampled and `ST` becomes `BUSY`. The completing edge is `LATENCY` edges later (R33). -/
def State.acceptRequest (s : State) (p : Inputs) : State :=
  { s with opQ := p.reqOp, aQ := p.reqA, bQ := p.reqB, st := .busy, edgesLeft := Config.latency p.reqOp - 1 }

/-- An edge of `BUSY` before the completing one: nothing visible changes (R33). -/
def State.waitEdge (s : State) : State := { s with edgesLeft := s.edgesLeft - 1 }

/-- The response is taken (R34): `ST` becomes `IDLE`, the response registers keep their values. -/
def State.takeResponse (s : State) : State := { s with st := .idle }

/-- The host keeps `RST = 0` at the next edge; what it drives otherwise is as before. -/
def keepResetLow : List Inputs → List Inputs
  | [] => []
  | p :: ps => { p with rst := false } :: ps

/-- The state as `s`, but with the request `r` latched and its completing edge next (log 2): the latched registers hold `r`, `ST`
is `BUSY`, no edge is left to wait for, and the host does not reset. -/
def State.placeRequest (s : State) (r : Request) : State :=
  { s with st := .busy, opQ := r.op, aQ := r.a, bQ := r.b, edgesLeft := 0, inputs := keepResetLow s.inputs }

end Sys2Proof.Machine
end

