-- ==== Sys2Proof/Machine/Step.lean ====
section
/-! DEFINITION. The step function: one step is one rising edge of `CLK` (10_state.md R39). -/

namespace Sys2Proof.Machine

/-- One rising edge (R39). At the completing edge the latched request is decoded and executed (R33); the other kinds of edge are
the operations of Edge.lean. -/
def step (s : State) : Host.Outcome State Fault Refusal :=
  match s.edgeKind with
  | .reset => .next s.endEdge.resetEdge
  | .hold => .next s.endEdge
  | .accept => .next (s.endEdge.acceptRequest s.pins)
  | .wait => .next s.endEdge.waitEdge
  | .complete => exec (decode s.request) s.endEdge
  | .take => .next s.endEdge.takeResponse
  | .eleven => .fault .stEleven

/-- `s` with the request word `w` (its bits numbered as `W`'s, those above `nbits` zero) latched, so that the next step is its
completing edge (log 2). -/
def State.withFetchWord (s : State) (nbits w : Nat) : State :=
  s.placeRequest (Request.ofWord (BitVec.ofNat 68 (w % 2 ^ nbits)))

end Sys2Proof.Machine
end

