-- ==== Sys2Proof/Machine/OpFunction.lean ====
section
/-! DEFINITION. The operation function `F` of 30_encoding.md R74, written from that rule on the fields of a request and apart from
the decoder and the meanings. `exec` does not call it; statements compare the two. -/

namespace Sys2Proof.Machine

/-- The response of a classifier in R74: `(zext_64(p), p, 0)`. -/
def predicateResponse (p : Bool) : Response := ⟨if p then 1#64 else 0#64, p, false⟩

/-- `F(op, a, b) -> (R, FLAG, ILLEGAL)` (R74), with the table `ROM` and `CANON_NAN` as arguments. -/
def operationFunction (rom : Vector Word 32) (canonNan : Bf16) (r : Request) : Response :=
  let a16 : Bf16 := r.a.extractLsb' 0 16
  let b16 : Bf16 := r.b.extractLsb' 0 16
  if r.op = 0x0#4 then ⟨(bf16Add canonNan a16 b16).setWidth 64, false, false⟩
  else if r.op = 0x1#4 then ⟨(bf16Sub canonNan a16 b16).setWidth 64, false, false⟩
  else if r.op = 0x2#4 then ⟨(bf16Mul canonNan a16 b16).setWidth 64, false, false⟩
  else if r.op = 0x3#4 then ⟨(bf16Div canonNan a16 b16).setWidth 64, false, false⟩
  else if r.op = 0x4#4 then predicateResponse (isNan a16)
  else if r.op = 0x5#4 then predicateResponse (isInf a16)
  else if r.op = 0x6#4 then predicateResponse (isZero a16)
  else if r.op = 0x8#4 then ⟨imul r.a r.b, false, false⟩
  else if r.op = 0x9#4 then ⟨(udivmod r.a r.b).2 ++ (udivmod r.a r.b).1, false, false⟩
  else if r.op = 0xA#4 then ⟨(udivmod r.a r.b).2.setWidth 64, false, false⟩
  else if r.op = 0xB#4 then ⟨BitVec.ofNat 64 (lzc r.a), false, false⟩
  else if r.op = 0xC#4 then ⟨(rsqrt rom r.a).setWidth 64, false, false⟩
  else ⟨0#64, false, true⟩

end Sys2Proof.Machine
end

