-- ==== Sys2Proof/Safety.lean ====
section
/-! DEFINITION. The terms the statements use: runs of edges, legal states, the fault of a host program, and closed forms of the
arithmetic that follow the rules' own words rather than the loops. -/

namespace Sys2Proof.Machine

/-! ### Runs -/

/-- `n` rising edges, stopping at the first fault or refusal. -/
def runEdges : Nat → State → Host.Outcome State Fault Refusal
  | 0, s => .next s
  | n + 1, s =>
    match step s with
    | .next t => runEdges n t
    | .fault r => .fault r
    | .refused r => .refused r

/-- The response a state holds in its response registers. -/
def State.heldResponse (s : State) : Response := ⟨s.rQ, s.flagQ, s.illegalQ⟩

/-- A legal state: `ST` is one of its three values (10_state.md R29), `CANON_NAN` is a NaN (41_bf16_codec.md R138), no edges are
left to wait for unless an operation is in flight, and a response that is present is the one `F` gives for the latched request
(10_state.md R33). -/
structure Legal (s : State) : Prop where
  st : s.st ≠ .eleven
  nan : isNan s.canonNan = true
  wait : s.st ≠ .busy → s.edgesLeft = 0
  response : s.st = .done → s.heldResponse = operationFunction s.rom s.canonNan s.request

/-- Where a model of a HOST PROGRAM stops with a fault: the response present is the illegal one (60_exceptions.md R241, U8). The
unit itself goes on. -/
def hostProgramFault (s : State) : Bool := s.rspValid && s.illegalQ

/-! ### bf16 closed forms -/

/-- Neither zero, infinity nor NaN. -/
def finiteNonzero (v : Bf16) : Bool := isSubnormal v || isNormal v

/-- A working mantissa after the alignment to exponent `e`: shifted right by the difference, truncated (42_bf16_add.md R156). -/
def alignedMantissa (v : Bf16) (e : Nat) : Nat := restoredMantissa v / 2 ^ (e - exponent v)

/-- How many left shifts bring the leading 1 of `m < 256` to bit 7. -/
def leadingShift (m : Nat) : Nat := 7 - Nat.log2 m

/-- The sum of same-sign operands whose exponents differ by at most 8 (42_bf16_add.md R155 to R157, R159). -/
def sumSameSign (canonNan x y : Bf16) : Bf16 :=
  let e := max (exponent x) (exponent y)
  let m := alignedMantissa x e + alignedMantissa y e
  if m < 256 then pack (sign x) e m
  else if 255 ≤ e + 1 then canonNan
  else pack (sign x) (e + 1) (m / 2)

/-- The sum of opposite-sign operands whose exponents differ by at most 8 (42_bf16_add.md R155, R156, R158, R159): zero when the
mantissas cancel, and when the left normalisation reaches exponent 0 or less. -/
def sumOppositeSign (x y : Bf16) : Bf16 :=
  let e := max (exponent x) (exponent y)
  let mx := alignedMantissa x e
  let my := alignedMantissa y e
  let m := if my ≤ mx then mx - my else my - mx
  let k := leadingShift m
  if m = 0 ∨ (m < 128 ∧ e ≤ k) then 0x0000#16
  else pack (if my ≤ mx then sign x else sign y) ((e : Int) - k) (m * 2 ^ k)

/-- The mantissa of a multiply operand, its leading 1 at bit 7 (43_bf16_mul.md R183). -/
def mulMantissa (v : Bf16) : Nat :=
  if exponent v = 0 then mantissa v * 2 ^ leadingShift (mantissa v) else 128 + mantissa v

/-- The exponent of a multiply operand with its adjustment (43_bf16_mul.md R183, R184). -/
def mulExponent (v : Bf16) : Int :=
  if exponent v = 0 then 1 - (leadingShift (mantissa v) : Int) else exponent v

/-- The product of finite nonzero operands (43_bf16_mul.md R184 to R187). -/
def productFinite (x y : Bf16) : Bf16 :=
  let rs := sign x ^^^ sign y
  let p := mulMantissa x * mulMantissa y
  let h : Nat := if 2 ^ 15 ≤ p then 1 else 0
  let re : Int := mulExponent x + mulExponent y - 127 + h
  let rm := p / 2 ^ (7 + h) % 128
  if 255 ≤ re then infinity rs
  else if re < -6 then signedZero rs
  else if re ≤ 0 then pack rs 0 (rm / 2 ^ (1 - re).toNat)
  else pack rs re rm

/-- The quotient of finite nonzero operands (44_bf16_div.md R204 to R208), its 16-bit quotient by division: exact while the
dividend mantissa is below twice the divisor's, all ones from there on (R205). -/
def quotientFinite (x y : Bf16) : Bf16 :=
  let rs := sign x ^^^ sign y
  let q := min (restoredMantissa x * 2 ^ 15 / restoredMantissa y) 0xFFFF
  let re : Int := (exponent x : Int) - exponent y + 127 - (if exponent x = 0 then 1 else 0) + (if exponent y = 0 then 1 else 0)
  let k : Nat := if 2 ^ 15 ≤ q then 0 else min (15 - Nat.log2 q) (re - 1).toNat
  if 255 ≤ re - k then infinity rs
  else if re - k ≤ 0 then signedZero rs
  else pack rs (re - k) (q * 2 ^ k / 256 % 128)

/-! ### RSQRT closed forms -/

/-- One Newton-Raphson pass on natural numbers, every product and difference kept to 32 bits (45_rsqrt.md R220 step 5). -/
def newtonNat (x y : Nat) : Nat :=
  let y2 := y * y % 2 ^ 32
  let xy2 := x * y2 / 2 ^ 16 % 2 ^ 32
  y * ((3 * 2 ^ 16 + 2 ^ 32 - xy2) % 2 ^ 32) / 2 ^ 17 % 2 ^ 32

/-- The interpolation of R224 on natural numbers, from `y` toward `yNext`: both subtractions modulo `2^32` (45_rsqrt.md R220). -/
def interpolateNat (y yNext frac : Nat) : Nat :=
  let delta := (y + 2 ^ 32 - yNext) % 2 ^ 32
  (y + 2 ^ 32 - delta * frac / 2 ^ 16 % 2 ^ 32) % 2 ^ 32

/-- The fraction of R224: the position of `x` above `2^e`, in units of `2^(e-16)`, truncated. -/
def fractionNat (x e : Nat) : Nat := (x - 2 ^ e) * 2 ^ 16 / 2 ^ e

end Sys2Proof.Machine
end

