-- ==== Sys2Proof/Certificates/Slice0/Obligations.lean ====
section
/-! DEFINITION. The statements for the provers. Each docstring names the rule of spec/ it formalises. A completion statement gives
the next state whole, as an update of the state before, so it is the instruction's frame as well: the latched request, the table,
`CANON_NAN`, and the model's own fields are unchanged. There is no memory and no register file, so no frame speaks of one. -/

open Sys2Proof Sys2Proof.Machine

/-! ### Encoding -/

/-- R70, R71: every instruction, with every operand, is read back from its request word. -/
def Obligations.DecodeInvertsEncode : Prop := ∀ i : Instr, decodeWord (encodeWord i) = i

/-- R70, R71: no bit of a request word is dropped: every 68-bit word is the encoding of what it decodes to. -/
def Obligations.EncodeInvertsDecode : Prop := ∀ w : ReqWord, encodeWord (decodeWord w) = w

/-- Six words that 95_test_vectors.md lists, one for each of several families, decode to the operations listed there: five from the
tables of section 2, the reserved code's from program P5 of section 3. -/
def Obligations.ListedWordsDecode : Prop :=
  decodeWord 0x0_00003F80_0000BF80#68 = .bf16Add 0x3F80#32 0xBF80#32 ∧
  decodeWord 0x3_00004049_00003F80#68 = .bf16Div 0x4049#32 0x3F80#32 ∧
  decodeWord 0x6_00008000_00000000#68 = .bf16IsZero 0x8000#32 0x0#32 ∧
  decodeWord 0x7_00003F80_00003F80#68 = .reserved7 0x3F80#32 0x3F80#32 ∧
  decodeWord 0x9_FFFFFFFE_00000007#68 = .idiv 0xFFFFFFFE#32 0x7#32 ∧
  decodeWord 0xC_000F4240_00000000#68 = .rsqrt 0xF4240#32 0x0#32

/-- R71: `op` alone selects the operation, by the sixteen codes of the table, whatever the operands. -/
def Obligations.OperationCodesSelect : Prop :=
  ∀ a b : Word,
    decode ⟨0x0#4, a, b⟩ = .bf16Add a b ∧ decode ⟨0x1#4, a, b⟩ = .bf16Sub a b ∧
    decode ⟨0x2#4, a, b⟩ = .bf16Mul a b ∧ decode ⟨0x3#4, a, b⟩ = .bf16Div a b ∧
    decode ⟨0x4#4, a, b⟩ = .bf16IsNan a b ∧ decode ⟨0x5#4, a, b⟩ = .bf16IsInf a b ∧
    decode ⟨0x6#4, a, b⟩ = .bf16IsZero a b ∧ decode ⟨0x7#4, a, b⟩ = .reserved7 a b ∧
    decode ⟨0x8#4, a, b⟩ = .imul a b ∧ decode ⟨0x9#4, a, b⟩ = .idiv a b ∧
    decode ⟨0xA#4, a, b⟩ = .imod a b ∧ decode ⟨0xB#4, a, b⟩ = .lzc a b ∧
    decode ⟨0xC#4, a, b⟩ = .rsqrt a b ∧ decode ⟨0xD#4, a, b⟩ = .reservedD a b ∧
    decode ⟨0xE#4, a, b⟩ = .reservedE a b ∧ decode ⟨0xF#4, a, b⟩ = .reservedF a b

/-! ### Edges -/

/-- R33: at the completing edge, the step runs the instruction that the latched request's word decodes to. `endEdge` uses up the
host's entry for this edge and counts the edge. -/
def Obligations.StepRunsLatchedRequest : Prop :=
  ∀ (s : State) (i : Instr), s.pins.rst = false → s.st = .busy → s.edgesLeft = 0 → decodeWord s.request.toWord = i →
    step s = exec i s.endEdge

/-- The model's choice (log 2): a word placed by `withFetchWord` is run by the very next step. -/
def Obligations.StepRunsPlacedWord : Prop :=
  ∀ (s : State) (nbits w : Nat) (i : Instr), decodeTableWord nbits w = some i →
    step (s.withFetchWord nbits w) = exec i (s.withFetchWord nbits w).endEdge

/-- R270: what a reset edge leaves, in any state: `ST` is `IDLE`, the latched registers and the table keep what they hold, nothing
is accepted, completed or taken at that edge, and the first request can be accepted at the next edge without reset. The model's own
fields `edgesLeft`, `inputs` and `edges` are bookkeeping (log 1, log 6, log 8); what the counter becomes is not said here. -/
def Obligations.ResetEdgeReturnsToIdle : Prop :=
  ∀ s : State, s.pins.rst = true →
    ∃ t n, step s = .next t ∧
      t = { s with st := .idle, edgesLeft := n, inputs := s.inputs.tail, edges := s.edges + 1 } ∧
      t.outputs.reqReady = true ∧ t.outputs.rspValid = false ∧ s.takenResponse = none ∧
      (t.pins.rst = false → t.pins.reqValid = true → ∃ u, step t = .next u ∧ u.st = .busy)

/-- R32: acceptance, and an edge of `IDLE` without a request; of the edges without reset, an accepting edge alone changes the latched
request, so the operation uses only the values sampled there. (Reset edges are in `ResetEdgeReturnsToIdle`.) The latency counter is
the model's (log 6): what it becomes is not said here, but in `RequestCompletesAfterLatency`. -/
def Obligations.AcceptanceSamplesRequest : Prop :=
  (∀ s : State, s.pins.rst = false → s.st = .idle → s.pins.reqValid = true →
    ∃ n, step s = .next { s with opQ := s.pins.reqOp, aQ := s.pins.reqA, bQ := s.pins.reqB, st := .busy,
                                 edgesLeft := n, inputs := s.inputs.tail, edges := s.edges + 1 }) ∧
  (∀ s : State, s.pins.rst = false → s.st = .idle → s.pins.reqValid = false →
    step s = .next { s with inputs := s.inputs.tail, edges := s.edges + 1 }) ∧
  (∀ s t : State, s.pins.rst = false → step s = .next t → ¬ (s.st = .idle ∧ s.pins.reqValid = true) → t.request = s.request)

/-- R34: the response taken, and the response held. -/
def Obligations.ResponseTakenOrHeld : Prop :=
  (∀ s : State, s.pins.rst = false → s.st = .done → s.pins.rspReady = true →
    s.takenResponse = some ⟨s.rQ, s.flagQ, s.illegalQ⟩ ∧
    ∃ t, step s = .next t ∧ t = { s with st := .idle, inputs := s.inputs.tail, edges := s.edges + 1 } ∧
      t.outputs.rspValid = false) ∧
  (∀ s : State, s.pins.rst = false → s.st = .done → s.pins.rspReady = false →
    s.takenResponse = none ∧ step s = .next { s with inputs := s.inputs.tail, edges := s.edges + 1 })

/-- R30, and R31 while a response is present: the output ports follow the state. -/
def Obligations.OutputsFollowState : Prop :=
  ∀ s : State, (s.outputs.reqReady = true ↔ s.st = .idle) ∧ (s.outputs.rspValid = true ↔ s.st = .done) ∧
    (s.outputs.rspValid = true → s.outputs.rspR = s.rQ ∧ s.outputs.rspFlag = s.flagQ ∧ s.outputs.rspIllegal = s.illegalQ)

/-- R33, in the parameter form of R37, which is the model's choice with its counter `edgesLeft` (log 6; past the end of `inputs` the
host drives nothing, log 1): a request accepted at an edge completes exactly `LATENCY(op)` edges later, whatever the host drives on
the other ports meanwhile; the response is `F` of the values sampled, and at every earlier edge nothing visible changes. -/
def Obligations.RequestCompletesAfterLatency : Prop :=
  ∀ (s : State) (p : Inputs) (rest : List Inputs), s.st = .idle → s.inputs = p :: rest → p.rst = false → p.reqValid = true →
    (∀ q ∈ rest.take (Config.latency p.reqOp), q.rst = false) →
    (∀ k, 1 ≤ k → k ≤ Config.latency p.reqOp →
      runEdges k s = .next { s with opQ := p.reqOp, aQ := p.reqA, bQ := p.reqB, st := .busy,
                                    edgesLeft := Config.latency p.reqOp - k, inputs := s.inputs.drop k, edges := s.edges + k }) ∧
    runEdges (1 + Config.latency p.reqOp) s =
      .next { s with
        opQ := p.reqOp, aQ := p.reqA, bQ := p.reqB, st := .done, edgesLeft := 0,
        rQ := (operationFunction s.rom s.canonNan ⟨p.reqOp, p.reqA, p.reqB⟩).r,
        flagQ := (operationFunction s.rom s.canonNan ⟨p.reqOp, p.reqA, p.reqB⟩).flag,
        illegalQ := (operationFunction s.rom s.canonNan ⟨p.reqOp, p.reqA, p.reqB⟩).illegal,
        inputs := s.inputs.drop (1 + Config.latency p.reqOp), edges := s.edges + (1 + Config.latency p.reqOp) }

/-- R279: the fastest handshake cycle, in the parameter form of R37 (the model's choice, log 6; past the end of `inputs` the host
drives nothing, log 1). Accepted at edge 1: whatever the host drives, no response is present or taken at any edge up to
`LATENCY(op) + 1`, and the unit is not ready before the response is taken, so no shorter cycle exists; and if the host is ready at
edge `LATENCY(op) + 2`, it takes the response of `F` there and the unit is ready again. -/
def Obligations.FastestCycleTakesResponse : Prop :=
  ∀ (s : State) (p : Inputs) (rest : List Inputs), s.st = .idle → s.inputs = p :: rest → p.rst = false → p.reqValid = true →
    (∀ x ∈ rest.take (Config.latency p.reqOp), x.rst = false) →
    (∀ k, k ≤ Config.latency p.reqOp →
      ∃ v, runEdges k s = .next v ∧ v.outputs.rspValid = false ∧ v.takenResponse = none ∧
        (1 ≤ k → v.outputs.reqReady = false)) ∧
    (∃ t, runEdges (Config.latency p.reqOp + 1) s = .next t ∧ t.outputs.rspValid = true ∧ t.outputs.reqReady = false) ∧
    (∀ q, rest[Config.latency p.reqOp]? = some q → q.rst = false → q.rspReady = true →
      ∃ t u, runEdges (Config.latency p.reqOp + 1) s = .next t ∧
        t.takenResponse = some (operationFunction s.rom s.canonNan ⟨p.reqOp, p.reqA, p.reqB⟩) ∧
        runEdges (Config.latency p.reqOp + 2) s = .next u ∧ u.outputs.reqReady = true)

/-- R35: no other transitions. Without reset `ST` goes around `IDLE`, `BUSY`, `DONE` only; a request is not accepted and the
response registers are not written elsewhere; taking a response and accepting a request never fall at one edge. -/
def Obligations.TransitionsFollowCycle : Prop :=
  ∀ s t : State, s.pins.rst = false → step s = .next t →
    ((s.st = .idle ∧ (t.st = .idle ∨ t.st = .busy)) ∨ (s.st = .busy ∧ (t.st = .busy ∨ t.st = .done)) ∨
      (s.st = .done ∧ (t.st = .done ∨ t.st = .idle))) ∧
    (s.st ≠ .idle → s.outputs.reqReady = false ∧ t.request = s.request) ∧
    (t.heldResponse ≠ s.heldResponse → s.st = .busy ∧ t.st = .done) ∧
    (s.takenResponse ≠ none → s.st = .done ∧ t.st = .idle ∧ t.request = s.request)

/-- R274, R276: what the host drives on the request ports while `ST` is not `IDLE` has no effect and leaves no trace. -/
def Obligations.RequestPortsIgnoredUnlessIdle : Prop :=
  ∀ (s : State) (p p' : Inputs) (rest : List Inputs), s.st ≠ .idle → p'.rst = p.rst → p'.rspReady = p.rspReady →
    step { s with inputs := p' :: rest } = step { s with inputs := p :: rest }

/-- R275: the response ports are stable for as long as the host neither takes the response nor resets. -/
def Obligations.ResponseStableUntilTaken : Prop :=
  ∀ (n : Nat) (s : State), s.st = .done → (∀ p ∈ s.inputs.take n, p.rst = false ∧ p.rspReady = false) →
    ∃ t, runEdges n s = .next t ∧ t = { s with inputs := s.inputs.drop n, edges := s.edges + n } ∧ t.outputs = s.outputs

/-- The invariant of the machine: every step keeps a legal state legal (`Legal` in Safety.lean: R29, R138, R33). -/
def Obligations.EveryStepKeepsLegal : Prop := ∀ s t : State, Legal s → step s = .next t → Legal t

/-- The state after reset is legal. The values it names for the unspecified registers are the model's choice (log 3) and play no
part: no response is present. -/
def Obligations.ResetStateIsLegal : Prop := Legal State.reset

/-- R29, as a model that keeps `0b11` (log 7): the step faults there and nowhere else, and never refuses. -/
def Obligations.FaultOnlyAtUnreachableSt : Prop :=
  ∀ s : State, (step s = .fault .stEleven ↔ s.pins.rst = false ∧ s.st = .eleven) ∧ (∀ r, step s ≠ .refused r) ∧
    (Legal s → ∃ t, step s = .next t)

/-- R28: no step writes the table; nor the parameter `CANON_NAN`, a parameter of the implementation by R138, which the model holds
as a field of the state (the model's choice, log 4). -/
def Obligations.TableNeverWritten : Prop :=
  ∀ s t : State, step s = .next t → t.rom = s.rom ∧ t.canonNan = s.canonNan

/-! ### The operation function -/

/-- R74: every request completes with the response of `F`, and nothing else changes but `ST`. -/
def Obligations.ExecIsOperationFunction : Prop :=
  ∀ (r : Request) (s : State),
    exec (decode r) s = .next { s with
      rQ := (operationFunction s.rom s.canonNan r).r, flagQ := (operationFunction s.rom s.canonNan r).flag,
      illegalQ := (operationFunction s.rom s.canonNan r).illegal, st := .done }

/-- R51: only RSQRT reads the table. -/
def Obligations.OnlyRsqrtReadsTable : Prop :=
  ∀ (r : Request) (s : State) (rom : Vector Word 32), r.op ≠ 0xC#4 →
    ∃ t, exec (decode r) s = .next t ∧ exec (decode r) { s with rom := rom } = .next { t with rom := rom }

/-- R72: ignored operand bits change nothing: the upper halves for a bf16 operation, operand B for a unary operation, both operands
for a reserved code. -/
def Obligations.IgnoredBitsChangeNothing : Prop :=
  (∀ (a a' b b' : Word) (s : State), a.extractLsb' 0 16 = a'.extractLsb' 0 16 → b.extractLsb' 0 16 = b'.extractLsb' 0 16 →
    exec (.bf16Add a b) s = exec (.bf16Add a' b') s ∧ exec (.bf16Sub a b) s = exec (.bf16Sub a' b') s ∧
    exec (.bf16Mul a b) s = exec (.bf16Mul a' b') s ∧ exec (.bf16Div a b) s = exec (.bf16Div a' b') s) ∧
  (∀ (a a' b b' : Word) (s : State), a.extractLsb' 0 16 = a'.extractLsb' 0 16 →
    exec (.bf16IsNan a b) s = exec (.bf16IsNan a' b') s ∧ exec (.bf16IsInf a b) s = exec (.bf16IsInf a' b') s ∧
    exec (.bf16IsZero a b) s = exec (.bf16IsZero a' b') s) ∧
  (∀ (a b b' : Word) (s : State), exec (.lzc a b) s = exec (.lzc a b') s ∧ exec (.rsqrt a b) s = exec (.rsqrt a b') s) ∧
  (∀ (a a' b b' : Word) (s : State),
    exec (.reserved7 a b) s = exec (.reserved7 a' b') s ∧ exec (.reservedD a b) s = exec (.reservedD a' b') s ∧
    exec (.reservedE a b) s = exec (.reservedE a' b') s ∧ exec (.reservedF a b) s = exec (.reservedF a' b') s)

/-- R25: the flag is the predicate for the three classifiers and 0 for every other operation and every reserved code; no operation
reads the flag. -/
def Obligations.FlagIsClassifierPredicate : Prop :=
  ∀ (r : Request) (s : State),
    (∃ t, exec (decode r) s = .next t ∧
      t.flagQ = (if r.op = 0x4#4 then isNan (bf16Operand r.a) else if r.op = 0x5#4 then isInf (bf16Operand r.a)
        else if r.op = 0x6#4 then isZero (bf16Operand r.a) else false)) ∧
    (∀ f : Bool, exec (decode r) { s with flagQ := f } = exec (decode r) s)

/-- R75: the codes `0x7`, `0xD`, `0xE`, `0xF` are illegal and no other is; every operand value is legal for every defined code. -/
def Obligations.IllegalExactlyForReserved : Prop :=
  ∀ (r : Request) (s : State), ∃ t, exec (decode r) s = .next t ∧
    (t.illegalQ = true ↔ (r.op = 0x7#4 ∨ r.op = 0xD#4 ∨ r.op = 0xE#4 ∨ r.op = 0xF#4))

/-- R76: a reserved code completes normally with `R = 0`, `FLAG = 0`, `ILLEGAL = 1`, nothing else changes; a model of the program
that sent it stops there; and the unit goes on: once the response is taken, the next request is accepted. -/
def Obligations.ReservedCodesRespondIllegal : Prop :=
  ∀ (a b : Word) (s : State), ∃ t, t = { s with rQ := 0#64, flagQ := false, illegalQ := true, st := .done } ∧
    exec (.reserved7 a b) s = .next t ∧ exec (.reservedD a b) s = .next t ∧
    exec (.reservedE a b) s = .next t ∧ exec (.reservedF a b) s = .next t ∧
    hostProgramFault t = true ∧
    ∀ (p q : Inputs) (rest : List Inputs), p.rst = false → p.rspReady = true → q.rst = false → q.reqValid = true →
      ∃ u, runEdges 2 { t with inputs := p :: q :: rest } = .next u ∧ u.st = .busy ∧ u.request = ⟨q.reqOp, q.reqA, q.reqB⟩

/-! ### Codec and classifiers -/

/-- R134, R131 to R133: a pattern is packed again from its fields. -/
def Obligations.PackRestoresPattern : Prop := ∀ v : Bf16, pack (sign v) (exponent v) (mantissa v) = v

/-- R139: by its exponent and mantissa fields each pattern falls in exactly one of the five categories. -/
def Obligations.CategoriesPartitionPatterns : Prop :=
  ∀ v : Bf16,
    (isZero v = true ↔ v.extractLsb' 7 8 = 0#8 ∧ v.extractLsb' 0 7 = 0#7) ∧
    (isSubnormal v = true ↔ v.extractLsb' 7 8 = 0#8 ∧ v.extractLsb' 0 7 ≠ 0#7) ∧
    (isNormal v = true ↔ v.extractLsb' 7 8 ≠ 0#8 ∧ v.extractLsb' 7 8 ≠ 255#8) ∧
    (isInf v = true ↔ v.extractLsb' 7 8 = 255#8 ∧ v.extractLsb' 0 7 = 0#7) ∧
    (isNan v = true ↔ v.extractLsb' 7 8 = 255#8 ∧ v.extractLsb' 0 7 ≠ 0#7) ∧
    ([isZero v, isSubnormal v, isNormal v, isInf v, isNan v].filter id).length = 1

/-- R135 to R137, R140 to R142: the classifiers, with the predicates on the low 15 bits of operand A: above `0x7F80`, equal to it,
zero. -/
def Obligations.ClassifierResponses : Prop :=
  ∀ (a b : Word) (s : State),
    (decode ⟨0x4#4, a, b⟩ = .bf16IsNan a b ∧
      exec (.bf16IsNan a b) s =
        .next { s with rQ := if 0x7F80 < a.toNat % 2 ^ 15 then 1#64 else 0#64, flagQ := decide (0x7F80 < a.toNat % 2 ^ 15),
                       illegalQ := false, st := .done }) ∧
    (decode ⟨0x5#4, a, b⟩ = .bf16IsInf a b ∧
      exec (.bf16IsInf a b) s =
        .next { s with rQ := if a.toNat % 2 ^ 15 = 0x7F80 then 1#64 else 0#64, flagQ := decide (a.toNat % 2 ^ 15 = 0x7F80),
                       illegalQ := false, st := .done }) ∧
    (decode ⟨0x6#4, a, b⟩ = .bf16IsZero a b ∧
      exec (.bf16IsZero a b) s =
        .next { s with rQ := if a.toNat % 2 ^ 15 = 0 then 1#64 else 0#64, flagQ := decide (a.toNat % 2 ^ 15 = 0),
                       illegalQ := false, st := .done })

/-! ### Integer operations -/

/-- R101: the exact 64-bit product. -/
def Obligations.ImulExactProduct : Prop :=
  ∀ (a b : Word) (s : State), decode ⟨0x8#4, a, b⟩ = .imul a b ∧ a.toNat * b.toNat < 2 ^ 64 ∧
    exec (.imul a b) s =
      .next { s with rQ := BitVec.ofNat 64 (a.toNat * b.toNat), flagQ := false, illegalQ := false, st := .done }

/-- R103: quotient in the low half, remainder in the high half; both 0 for a zero divisor. -/
def Obligations.IdivQuotientAndRemainder : Prop :=
  ∀ (a b : Word) (s : State), decode ⟨0x9#4, a, b⟩ = .idiv a b ∧
    exec (.idiv a b) s =
      .next { s with
        rQ := if b = 0#32 then 0#64 else BitVec.ofNat 64 (a.toNat % b.toNat * 2 ^ 32 + a.toNat / b.toNat),
        flagQ := false, illegalQ := false, st := .done }

/-- R104: the remainder, 0 for a zero divisor. -/
def Obligations.ImodRemainder : Prop :=
  ∀ (a b : Word) (s : State), decode ⟨0xA#4, a, b⟩ = .imod a b ∧
    exec (.imod a b) s =
      .next { s with
        rQ := if b = 0#32 then 0#64 else BitVec.ofNat 64 (a.toNat % b.toNat), flagQ := false, illegalQ := false, st := .done }

/-- R105: division by zero is defined, gives 0 and 0, and neither traps nor sets a flag. -/
def Obligations.DivisionByZeroGivesZero : Prop :=
  ∀ (x : Word) (s : State),
    exec (.idiv x 0#32) s = .next { s with rQ := 0#64, flagQ := false, illegalQ := false, st := .done } ∧
    exec (.imod x 0#32) s = .next { s with rQ := 0#64, flagQ := false, illegalQ := false, st := .done }

/-- R107: the leading-zero count, 32 for 0. -/
def Obligations.LzcCountsLeadingZeros : Prop :=
  ∀ (a b : Word) (s : State), decode ⟨0xB#4, a, b⟩ = .lzc a b ∧
    exec (.lzc a b) s =
      .next { s with
        rQ := if a = 0#32 then 32#64 else BitVec.ofNat 64 (31 - Nat.log2 a.toNat), flagQ := false, illegalQ := false, st := .done }

/-- R106's informative form: the binary search over 16, 8, 4, 2 and 1 bits gives the same count for every nonzero input. -/
def Obligations.BinarySearchCountAgrees : Prop := ∀ x : Word, x ≠ 0#32 → lzcBinarySearch x = lzc x

/-! ### bf16 addition and subtraction -/

/-- R152: a NaN operand is returned unchanged, operand A first, before any test for infinity. -/
def Obligations.AddPropagatesNan : Prop :=
  ∀ (a b : Word) (s : State),
    (isNan (bf16Operand a) = true →
      exec (.bf16Add a b) s =
        .next { s with rQ := (bf16Operand a).setWidth 64, flagQ := false, illegalQ := false, st := .done }) ∧
    (isNan (bf16Operand a) = false → isNan (bf16Operand b) = true →
      exec (.bf16Add a b) s =
        .next { s with rQ := (bf16Operand b).setWidth 64, flagQ := false, illegalQ := false, st := .done })

/-- R153: infinities of opposite sign give `CANON_NAN`; an infinity and anything else but a NaN gives that infinity. -/
def Obligations.AddInfinities : Prop :=
  ∀ (a b : Word) (s : State), isNan (bf16Operand a) = false → isNan (bf16Operand b) = false →
    isInf (bf16Operand a) = true ∨ isInf (bf16Operand b) = true →
    exec (.bf16Add a b) s =
      .next { s with
        rQ := (if isInf (bf16Operand a) = true ∧ isInf (bf16Operand b) = true ∧ sign (bf16Operand a) ≠ sign (bf16Operand b)
          then s.canonNan else if isInf (bf16Operand a) = true then bf16Operand a else bf16Operand b).setWidth 64,
        flagQ := false, illegalQ := false, st := .done }

/-- R154: a zero operand gives the other operand unchanged, `a` tested first, so two zeros give `b`. -/
def Obligations.AddZeroGivesOther : Prop :=
  ∀ (a b : Word) (s : State), isNan (bf16Operand a) = false → isNan (bf16Operand b) = false →
    (isZero (bf16Operand a) = true →
      exec (.bf16Add a b) s =
        .next { s with rQ := (bf16Operand b).setWidth 64, flagQ := false, illegalQ := false, st := .done }) ∧
    (isZero (bf16Operand a) = false → isZero (bf16Operand b) = true →
      exec (.bf16Add a b) s =
        .next { s with rQ := (bf16Operand a).setWidth 64, flagQ := false, illegalQ := false, st := .done })

/-- R156: where the exponent fields of finite nonzero operands differ by more than 8, the larger operand is returned unchanged. -/
def Obligations.AddFarApartReturnsLarger : Prop :=
  ∀ (a b : Word) (s : State), finiteNonzero (bf16Operand a) = true → finiteNonzero (bf16Operand b) = true →
    exponent (bf16Operand b) + 8 < exponent (bf16Operand a) ∨ exponent (bf16Operand a) + 8 < exponent (bf16Operand b) →
    exec (.bf16Add a b) s =
      .next { s with
        rQ := (if exponent (bf16Operand b) < exponent (bf16Operand a) then bf16Operand a else bf16Operand b).setWidth 64,
        flagQ := false, illegalQ := false, st := .done }

/-- R155 to R157, R159: the sum of same-sign finite nonzero operands whose exponents differ by at most 8: truncated alignment, one
right shift with overflow to `CANON_NAN`, no test of bit 7. -/
def Obligations.AddSameSignSum : Prop :=
  ∀ (a b : Word) (s : State), finiteNonzero (bf16Operand a) = true → finiteNonzero (bf16Operand b) = true →
    exponent (bf16Operand a) ≤ exponent (bf16Operand b) + 8 → exponent (bf16Operand b) ≤ exponent (bf16Operand a) + 8 →
    sign (bf16Operand a) = sign (bf16Operand b) →
    exec (.bf16Add a b) s =
      .next { s with rQ := (sumSameSign s.canonNan (bf16Operand a) (bf16Operand b)).setWidth 64,
                     flagQ := false, illegalQ := false, st := .done }

/-- R155, R156, R158, R159: the sum of opposite-sign finite nonzero operands whose exponents differ by at most 8: cancellation and
underflow give `0x0000`, any other difference is normalised left. -/
def Obligations.AddOppositeSignDifference : Prop :=
  ∀ (a b : Word) (s : State), finiteNonzero (bf16Operand a) = true → finiteNonzero (bf16Operand b) = true →
    exponent (bf16Operand a) ≤ exponent (bf16Operand b) + 8 → exponent (bf16Operand b) ≤ exponent (bf16Operand a) + 8 →
    sign (bf16Operand a) ≠ sign (bf16Operand b) →
    exec (.bf16Add a b) s =
      .next { s with rQ := (sumOppositeSign (bf16Operand a) (bf16Operand b)).setWidth 64,
                     flagQ := false, illegalQ := false, st := .done }

/-- R163, first property: addition commutes but for two different NaNs and for two zeros of different sign. -/
def Obligations.AddCommutes : Prop :=
  ∀ (a b : Word) (s : State),
    ¬ (isNan (bf16Operand a) = true ∧ isNan (bf16Operand b) = true ∧ bf16Operand a ≠ bf16Operand b) →
    ¬ (isZero (bf16Operand a) = true ∧ isZero (bf16Operand b) = true ∧ bf16Operand a ≠ bf16Operand b) →
    exec (.bf16Add a b) s = exec (.bf16Add b a) s

/-- R163, last property: a sum is never a NaN other than an input NaN or `CANON_NAN`, never an infinity other than an input. -/
def Obligations.AddCreatesNoInfinity : Prop :=
  ∀ (a b : Word) (s : State), isNan s.canonNan = true →
    ∃ v : Bf16, exec (.bf16Add a b) s = .next { s with rQ := v.setWidth 64, flagQ := false, illegalQ := false, st := .done } ∧
      (isNan v = true → v = bf16Operand a ∨ v = bf16Operand b ∨ v = s.canonNan) ∧
      (isInf v = true → v = bf16Operand a ∨ v = bf16Operand b)

/-- R160: subtraction is addition with the second operand's sign bit flipped, before every test: a NaN `b` comes back with its sign
bit flipped, and `+0 - +0` is `-0`. -/
def Obligations.SubAddsFlippedSign : Prop :=
  ∀ (a b : Word) (s : State),
    exec (.bf16Sub a b) s = exec (.bf16Add a (b ^^^ 0x8000#32)) s ∧
    exec (.bf16Sub a b) s =
      .next { s with rQ := (bf16Add s.canonNan (bf16Operand a) (bf16Operand b ^^^ 0x8000#16)).setWidth 64,
                     flagQ := false, illegalQ := false, st := .done } ∧
    (isNan (bf16Operand a) = false → isNan (bf16Operand b) = true →
      bf16Add s.canonNan (bf16Operand a) (bf16Operand b ^^^ 0x8000#16) = bf16Operand b ^^^ 0x8000#16) ∧
    (bf16Operand a = 0x0000#16 → bf16Operand b = 0x0000#16 →
      bf16Add s.canonNan (bf16Operand a) (bf16Operand b ^^^ 0x8000#16) = 0x8000#16)

/-- R162's and R161's corner cases: `x - x` is `0x0000` for finite nonzero `x`; the sum of a normal `x` with itself is `2x` below the
overflow bound, and `CANON_NAN` at it. -/
def Obligations.SubSelfIsZeroAddSelfDoubles : Prop :=
  ∀ (a b : Word) (s : State), bf16Operand b = bf16Operand a →
    (finiteNonzero (bf16Operand a) = true →
      exec (.bf16Sub a b) s = .next { s with rQ := 0#64, flagQ := false, illegalQ := false, st := .done }) ∧
    (isNormal (bf16Operand a) = true →
      exec (.bf16Add a b) s =
        .next { s with
          rQ := (if exponent (bf16Operand a) ≤ 253
            then pack (sign (bf16Operand a)) (exponent (bf16Operand a) + 1) (mantissa (bf16Operand a)) else s.canonNan).setWidth 64,
          flagQ := false, illegalQ := false, st := .done })

/-! ### bf16 multiplication -/

/-- R182: the special values, in the order of the tests. -/
def Obligations.MulSpecialValues : Prop :=
  ∀ (a b : Word) (s : State), finiteNonzero (bf16Operand a) = false ∨ finiteNonzero (bf16Operand b) = false →
    exec (.bf16Mul a b) s =
      .next { s with
        rQ := (if isNan (bf16Operand a) = true then bf16Operand a
          else if isNan (bf16Operand b) = true then bf16Operand b
          else if (isInf (bf16Operand a) = true ∧ isZero (bf16Operand b) = true) ∨
              (isZero (bf16Operand a) = true ∧ isInf (bf16Operand b) = true) then s.canonNan
          else if isInf (bf16Operand a) = true ∨ isInf (bf16Operand b) = true
            then infinity (sign (bf16Operand a) ^^^ sign (bf16Operand b))
          else signedZero (sign (bf16Operand a) ^^^ sign (bf16Operand b))).setWidth 64,
        flagQ := false, illegalQ := false, st := .done }

/-- R183 to R187: the product of finite nonzero operands, subnormals normalised first; overflow to infinity, underflow to a subnormal
without its leading 1 or to zero. -/
def Obligations.MulFiniteProduct : Prop :=
  ∀ (a b : Word) (s : State), finiteNonzero (bf16Operand a) = true → finiteNonzero (bf16Operand b) = true →
    exec (.bf16Mul a b) s =
      .next { s with rQ := (productFinite (bf16Operand a) (bf16Operand b)).setWidth 64,
                     flagQ := false, illegalQ := false, st := .done }

/-- R189, first property: 1.0 is an identity for every normal operand. -/
def Obligations.MulByOneIsIdentity : Prop :=
  ∀ (a b : Word) (s : State), isNormal (bf16Operand a) = true → bf16Operand b = 0x3F80#16 →
    exec (.bf16Mul a b) s =
      .next { s with rQ := (bf16Operand a).setWidth 64, flagQ := false, illegalQ := false, st := .done }

/-- R189, second property: multiplication commutes but for two different NaNs. -/
def Obligations.MulCommutes : Prop :=
  ∀ (a b : Word) (s : State),
    ¬ (isNan (bf16Operand a) = true ∧ isNan (bf16Operand b) = true ∧ bf16Operand a ≠ bf16Operand b) →
    exec (.bf16Mul a b) s = exec (.bf16Mul b a) s

/-! ### bf16 division -/

/-- R202, R203: NaN operands first, the dividend before the divisor, then the special values in the order of the tests. -/
def Obligations.DivSpecialValues : Prop :=
  ∀ (a b : Word) (s : State), finiteNonzero (bf16Operand a) = false ∨ finiteNonzero (bf16Operand b) = false →
    exec (.bf16Div a b) s =
      .next { s with
        rQ := (if isNan (bf16Operand a) = true then bf16Operand a
          else if isNan (bf16Operand b) = true then bf16Operand b
          else if (isInf (bf16Operand a) = true ∧ isInf (bf16Operand b) = true) ∨
              (isZero (bf16Operand a) = true ∧ isZero (bf16Operand b) = true) then s.canonNan
          else if isInf (bf16Operand b) = true ∨ isZero (bf16Operand a) = true
            then signedZero (sign (bf16Operand a) ^^^ sign (bf16Operand b))
          else infinity (sign (bf16Operand a) ^^^ sign (bf16Operand b))).setWidth 64,
        flagQ := false, illegalQ := false, st := .done }

/-- R205's consequences: the 16-iteration quotient is the exact truncated one while `ma < 2 * mb`, and all ones from there on. -/
def Obligations.DivQuotientSaturates : Prop :=
  ∀ ma mb : Nat, 1 ≤ ma → ma ≤ 0xFF → 1 ≤ mb → mb ≤ 0xFF →
    divQuotient ma mb = (if ma < 2 * mb then ma * 2 ^ 15 / mb else 0xFFFF) ∧ divQuotient ma mb ≠ 0

/-- R204 to R208: the quotient of finite nonzero operands, subnormal ones with the exponent adjustments of R206. -/
def Obligations.DivFiniteQuotient : Prop :=
  ∀ (a b : Word) (s : State), finiteNonzero (bf16Operand a) = true → finiteNonzero (bf16Operand b) = true →
    exec (.bf16Div a b) s =
      .next { s with rQ := (quotientFinite (bf16Operand a) (bf16Operand b)).setWidth 64,
                     flagQ := false, illegalQ := false, st := .done }

/-- R208: a quotient is never subnormal. -/
def Obligations.DivNeverSubnormal : Prop :=
  ∀ (a b : Word) (s : State), isNan s.canonNan = true →
    ∃ v : Bf16, exec (.bf16Div a b) s = .next { s with rQ := v.setWidth 64, flagQ := false, illegalQ := false, st := .done } ∧
      isSubnormal v = false

/-- R209's corner case: a finite nonzero value divided by itself is 1.0. -/
def Obligations.DivBySelfIsOne : Prop :=
  ∀ (a b : Word) (s : State), finiteNonzero (bf16Operand a) = true → bf16Operand b = bf16Operand a →
    exec (.bf16Div a b) s = .next { s with rQ := 0x3F80#64, flagQ := false, illegalQ := false, st := .done }

/-- R189, R210: the sign of a product or a quotient that is no NaN is the exclusive or of the operands' signs. -/
def Obligations.ProductAndQuotientSigns : Prop :=
  ∀ (a b : Word) (s : State), isNan s.canonNan = true →
    ∃ v w : Bf16,
      exec (.bf16Mul a b) s = .next { s with rQ := v.setWidth 64, flagQ := false, illegalQ := false, st := .done } ∧
      exec (.bf16Div a b) s = .next { s with rQ := w.setWidth 64, flagQ := false, illegalQ := false, st := .done } ∧
      (isNan v = false → sign v = sign (bf16Operand a) ^^^ sign (bf16Operand b)) ∧
      (isNan w = false → sign w = sign (bf16Operand a) ^^^ sign (bf16Operand b))

/-! ### Reciprocal square root -/

/-- R221: the special inputs, whatever the table holds; and what one pass would make of the second, which is why it is special. -/
def Obligations.RsqrtSpecialInputs : Prop :=
  (∀ (b : Word) (s : State),
    exec (.rsqrt 0#32 b) s = .next { s with rQ := 0xFFFFFFFF#64, flagQ := false, illegalQ := false, st := .done } ∧
    exec (.rsqrt 1#32 b) s = .next { s with rQ := 65536#64, flagQ := false, illegalQ := false, st := .done }) ∧
  newtonPass 1#32 65536#32 = 98304#32

/-- R220, R225: for every other input and every table, the result is two Newton-Raphson passes over the initial guess, each computed
on natural numbers with 32-bit intermediates. -/
def Obligations.RsqrtTwoNewtonPasses : Prop :=
  ∀ (a b : Word) (s : State), 2 ≤ a.toNat →
    exec (.rsqrt a b) s =
      .next { s with rQ := BitVec.ofNat 64 (newtonNat a.toNat (newtonNat a.toNat (initialGuess s.rom a).toNat)),
                     flagQ := false, illegalQ := false, st := .done }

/-- R220 steps 3 and 4, R224: for every table, the guess is the table's entry at an exact power of two, and elsewhere the interpolated
value, each subtraction modulo `2^32` (`interpolateNat` in Safety.lean; the entry past the end is 0). Where the next entry does not
exceed entry `e`, that is the plain formula. -/
def Obligations.RsqrtInitialGuess : Prop :=
  ∀ (x : Word) (rom : Vector Word 32) (e : Fin 32), 2 ^ e.val ≤ x.toNat → x.toNat < 2 ^ (e.val + 1) →
    (x.toNat = 2 ^ e.val → initialGuess rom x = rom[e]) ∧
    (x.toNat ≠ 2 ^ e.val →
      (initialGuess rom x).toNat = interpolateNat rom[e].toNat (nextEntry rom e).toNat (fractionNat x.toNat e.val)) ∧
    (x.toNat ≠ 2 ^ e.val → (nextEntry rom e).toNat ≤ rom[e].toNat →
      (initialGuess rom x).toNat =
        rom[e].toNat - (rom[e].toNat - (nextEntry rom e).toNat) * fractionNat x.toNat e.val / 2 ^ 16)

/-- R51: RSQRT reads the entry at the top set bit, and the next one only when it interpolates below the top of the table. Tables that
agree there give the same response. -/
def Obligations.RsqrtReadsTwoEntries : Prop :=
  ∀ (a b : Word) (s : State) (rom : Vector Word 32),
    (∀ e : Fin 32, e.val = Nat.log2 a.toNat → rom[e] = s.rom[e]) →
    (∀ e : Fin 32, e.val = Nat.log2 a.toNat + 1 → a.toNat ≠ 2 ^ Nat.log2 a.toNat → rom[e] = s.rom[e]) →
    ∃ t, exec (.rsqrt a b) s = .next t ∧ exec (.rsqrt a b) { s with rom := rom } = .next { t with rom := rom }

/-- R224, R225: with the default table, for every input from 2 on, no 32-bit intermediate of step 4 or of either pass discards a bit:
at an input that is no power of two neither subtraction of step 4 goes below 0, and `delta`, the fraction and their product are in
the ranges of R224; the guess is in 1 to 46341; and each pass is the plain formula. -/
def Obligations.RsqrtPassesNeverWrap : Prop :=
  ∀ x : Word, 2 ≤ x.toNat →
    (∀ e : Fin 32, 2 ^ e.val ≤ x.toNat → x.toNat < 2 ^ (e.val + 1) → x.toNat ≠ 2 ^ e.val →
      (nextEntry rsqrtTableDefault e).toNat ≤ rsqrtTableDefault[e].toNat ∧
      rsqrtTableDefault[e].toNat - (nextEntry rsqrtTableDefault e).toNat ≤ 13573 ∧ fractionNat x.toNat e.val < 2 ^ 16 ∧
      (rsqrtTableDefault[e].toNat - (nextEntry rsqrtTableDefault e).toNat) * fractionNat x.toNat e.val < 2 ^ 29 ∧
      (rsqrtTableDefault[e].toNat - (nextEntry rsqrtTableDefault e).toNat) * fractionNat x.toNat e.val / 2 ^ 16 ≤
        rsqrtTableDefault[e].toNat ∧
      (initialGuess rsqrtTableDefault x).toNat = rsqrtTableDefault[e].toNat -
        (rsqrtTableDefault[e].toNat - (nextEntry rsqrtTableDefault e).toNat) * fractionNat x.toNat e.val / 2 ^ 16) ∧
    1 ≤ (initialGuess rsqrtTableDefault x).toNat ∧ (initialGuess rsqrtTableDefault x).toNat ≤ 46341 ∧
    ∀ y : Word, y = initialGuess rsqrtTableDefault x ∨ y = newtonPass x (initialGuess rsqrtTableDefault x) →
      y.toNat * y.toNat < 2 ^ 32 ∧ x.toNat * (y.toNat * y.toNat) / 2 ^ 16 ≤ 3 * 2 ^ 16 ∧
      (newtonPass x y).toNat = y.toNat * (3 * 2 ^ 16 - x.toNat * (y.toNat * y.toNat) / 2 ^ 16) / 2 ^ 17

/-- R228: with the default table, the result for `2^(2k)` is exactly `2^(16 - k)`, for `k` from 1 to 15. -/
def Obligations.RsqrtPowersOfFourExact : Prop :=
  ∀ (k : Nat) (b : Word) (s : State), 1 ≤ k → k ≤ 15 → s.rom = rsqrtTableDefault →
    exec (.rsqrt (BitVec.ofNat 32 (2 ^ (2 * k))) b) s =
      .next { s with rQ := BitVec.ofNat 64 (2 ^ (16 - k)), flagQ := false, illegalQ := false, st := .done }
end

