-- ==== Sys2Proof/Laws/Bf16.lean ====
section
/-! SUPPORT. What the bf16 codec and the bounded loops of the bf16 operations do, said once in closed form: the fields of a packed
pattern, and that the bound on each normalising loop is never reached before the loop is done (log 14). -/

namespace Sys2Proof.Machine

/-! ### The codec -/

theorem sign_toNat (v : Bf16) : (sign v).toNat = v.toNat / 2 ^ 15 := by
  have := v.isLt
  simp only [sign, BitVec.extractLsb'_toNat, Nat.shiftRight_eq_div_pow]
  omega

theorem exponent_eq (v : Bf16) : exponent v = v.toNat / 2 ^ 7 % 2 ^ 8 := by
  simp [exponent, BitVec.extractLsb'_toNat, Nat.shiftRight_eq_div_pow]

theorem mantissa_eq (v : Bf16) : mantissa v = v.toNat % 2 ^ 7 := by
  simp [mantissa, BitVec.extractLsb'_toNat]

theorem exponent_lt (v : Bf16) : exponent v < 256 := (v.extractLsb' 7 8).isLt

theorem mantissa_lt (v : Bf16) : mantissa v < 128 := (v.extractLsb' 0 7).isLt

/-- Two patterns with the same fields are the same pattern. -/
theorem eq_of_fields {v w : Bf16} (hs : sign v = sign w) (he : exponent v = exponent w) (hm : mantissa v = mantissa w) :
    v = w := by
  have hs' := congrArg BitVec.toNat hs
  rw [sign_toNat, sign_toNat] at hs'
  rw [exponent_eq, exponent_eq] at he
  rw [mantissa_eq, mantissa_eq] at hm
  have := v.isLt
  have := w.isLt
  apply BitVec.eq_of_toNat_eq
  omega

theorem pack_toNat (s : BitVec 1) (e : Int) (m : Nat) :
    (pack s e m).toNat = s.toNat * 2 ^ 15 + (e % 256).toNat * 2 ^ 7 + m % 128 := by
  have hs := s.isLt
  have he : (BitVec.ofInt 8 e).toNat = (e % 256).toNat := by simp [BitVec.toNat_ofInt]
  have he' : (e % 256).toNat < 256 := by omega
  rw [pack, BitVec.toNat_append, BitVec.toNat_append, he, BitVec.toNat_ofNat, ← Nat.shiftLeft_add_eq_or_of_lt (by omega),
    ← Nat.shiftLeft_add_eq_or_of_lt (by omega)]
  simp only [Nat.shiftLeft_eq]
  omega

/-- `pack` masks each field to its width (R134). -/
@[simp] theorem sign_pack (s : BitVec 1) (e : Int) (m : Nat) : sign (pack s e m) = s := by
  have := s.isLt
  apply BitVec.eq_of_toNat_eq
  rw [sign_toNat, pack_toNat]
  omega

@[simp] theorem exponent_pack (s : BitVec 1) (e : Int) (m : Nat) : exponent (pack s e m) = (e % 256).toNat := by
  have := s.isLt
  rw [exponent_eq, pack_toNat]
  omega

@[simp] theorem mantissa_pack (s : BitVec 1) (e : Int) (m : Nat) : mantissa (pack s e m) = m % 128 := by
  rw [mantissa_eq, pack_toNat]
  omega

/-- Restoring the implicit bit of a 7-bit mantissa adds 128. -/
theorem mantissa_or_implicit (v : Bf16) : mantissa v ||| 0x80 = 128 + mantissa v := by
  have h := Nat.shiftLeft_add_eq_or_of_lt (i := 7) (mantissa_lt v) 1
  rw [Nat.or_comm]
  simpa using h.symm

theorem restoredMantissa_eq (v : Bf16) :
    restoredMantissa v = if exponent v = 0 then mantissa v else 128 + mantissa v := by
  simp only [restoredMantissa, mantissa_or_implicit]
  split <;> simp_all

theorem restoredMantissa_lt (v : Bf16) : restoredMantissa v < 256 := by
  have := mantissa_lt v
  rw [restoredMantissa_eq]
  split <;> omega

/-! ### The normalising loops -/

/-- A left shift by one place moves the leading 1 up by one. -/
theorem log2_double {m : Nat} (h : m ≠ 0) : Nat.log2 (m <<< 1) = Nat.log2 m + 1 := by
  rw [Nat.shiftLeft_eq, pow_one, Nat.mul_comm, Nat.log2_two_mul h]

theorem log2_lt_of_lt {m k : Nat} (h0 : m ≠ 0) (h : m < 2 ^ k) : Nat.log2 m < k := (Nat.log2_lt h0).2 h

theorem le_log2_of_le {m k : Nat} (h0 : m ≠ 0) (h : 2 ^ k ≤ m) : k ≤ Nat.log2 m := (Nat.le_log2 h0).2 h

/-- The left normalisation of BF16_ADD in closed form: zero where the exponent would reach 0 or less, else all the shifts. -/
theorem normaliseLeft_done {k m : Nat} {e : Int} (h0 : m ≠ 0) (hm : m < 256) (hk : leadingShift m ≤ k) :
    normaliseLeft k m e =
      if m < 128 ∧ e ≤ leadingShift m then none else some (m * 2 ^ leadingShift m, e - leadingShift m) := by
  induction k generalizing m e with
  | zero =>
    have h7 : ¬ m < 128 := fun h => by
      have := log2_lt_of_lt (k := 7) h0 h
      simp only [leadingShift] at hk
      omega
    have hz : leadingShift m = 0 := by omega
    simp [normaliseLeft, h7, hz]
  | succ k ih =>
    by_cases h7 : m < 128
    · have hl := log2_lt_of_lt (k := 7) h0 h7
      have h2 : leadingShift m = leadingShift (m <<< 1) + 1 := by
        simp only [leadingShift, log2_double h0]
        omega
      have hd0 : m <<< 1 ≠ 0 := by rw [Nat.shiftLeft_eq]; omega
      have hd : m <<< 1 < 256 := by rw [Nat.shiftLeft_eq]; omega
      have hv : m <<< 1 * 2 ^ leadingShift (m <<< 1) = m * 2 ^ leadingShift m := by
        rw [h2, Nat.shiftLeft_eq, pow_succ]
        ring
      rw [normaliseLeft, if_pos (by simpa using h7), ih hd0 hd (by omega), hv]
      by_cases hz : m <<< 1 < 128
      · simp only [h7, hz, true_and]
        split_ifs <;> first | rfl | (exfalso; omega) | (simp only [Option.some.injEq, Prod.mk.injEq, true_and]; omega)
      · have h1 : leadingShift (m <<< 1) = 0 := by
          have := le_log2_of_le (k := 7) hd0 (by omega)
          simp only [leadingShift]
          omega
        simp only [h7, hz, true_and, false_and, if_false]
        split_ifs <;> first | rfl | (exfalso; omega) | (simp only [Option.some.injEq, Prod.mk.injEq, true_and]; omega)
    · have hz : leadingShift m = 0 := by
        have := le_log2_of_le (k := 7) h0 (by omega)
        simp only [leadingShift]
        omega
      simp [normaliseLeft, h7, hz]

/-- The operand loop of BF16_MUL in closed form: the leading 1 comes to bit 7, and each shift takes 1 from the adjustment. -/
theorem shiftUntilLeading_done {k m : Nat} {adj : Int} (h0 : m ≠ 0) (hm : m < 256) (hk : leadingShift m ≤ k) :
    shiftUntilLeading k m adj = (m * 2 ^ leadingShift m, adj - leadingShift m) := by
  induction k generalizing m adj with
  | zero =>
    have hz : leadingShift m = 0 := by omega
    simp [shiftUntilLeading, hz]
  | succ k ih =>
    by_cases h7 : m < 128
    · have hl := log2_lt_of_lt (k := 7) h0 h7
      have h2 : leadingShift m = leadingShift (m <<< 1) + 1 := by
        simp only [leadingShift, log2_double h0]
        omega
      have hd0 : m <<< 1 ≠ 0 := by rw [Nat.shiftLeft_eq]; omega
      have hd : m <<< 1 < 256 := by rw [Nat.shiftLeft_eq]; omega
      rw [shiftUntilLeading, if_pos (by simpa using h7), ih hd0 hd (by omega), h2, Nat.shiftLeft_eq, pow_succ]
      simp only [Prod.mk.injEq]
      constructor
      · ring
      · push_cast
        ring
    · have hz : leadingShift m = 0 := by
        have := le_log2_of_le (k := 7) h0 (by omega)
        simp only [leadingShift]
        omega
      simp [shiftUntilLeading, h7, hz]

/-- The left normalisation of BF16_DIV in closed form: as many shifts as bring the leading 1 to bit 15, but no more than take the
exponent to 1. -/
theorem normaliseQuotient_done {k q : Nat} {re : Int} (h0 : q ≠ 0) (hq : q < 2 ^ 16) (hk : 15 - Nat.log2 q ≤ k) :
    normaliseQuotient k q re =
      (q * 2 ^ min (15 - Nat.log2 q) (re - 1).toNat, re - (min (15 - Nat.log2 q) (re - 1).toNat : Nat)) := by
  induction k generalizing q re with
  | zero =>
    have hz : 15 - Nat.log2 q = 0 := by omega
    simp [normaliseQuotient, hz]
  | succ k ih =>
    by_cases hc : q < 2 ^ 15 ∧ 1 < re
    · have hl := log2_lt_of_lt (k := 15) h0 hc.1
      have hd0 : q <<< 1 ≠ 0 := by rw [Nat.shiftLeft_eq]; omega
      have hd : q <<< 1 < 2 ^ 16 := by rw [Nat.shiftLeft_eq]; omega
      have h2 : min (15 - Nat.log2 q) (re - 1).toNat = min (15 - Nat.log2 (q <<< 1)) (re - 1 - 1).toNat + 1 := by
        rw [log2_double h0]
        omega
      rw [normaliseQuotient, if_pos (by simpa using hc), ih hd0 hd (by rw [log2_double h0]; omega), h2, Nat.shiftLeft_eq, pow_succ]
      simp only [Prod.mk.injEq]
      constructor
      · ring
      · push_cast
        ring
    · have hz : min (15 - Nat.log2 q) (re - 1).toNat = 0 := by
        by_cases h15 : q < 2 ^ 15
        · omega
        · have := le_log2_of_le (k := 15) h0 (by omega)
          omega
      rw [normaliseQuotient, if_neg (by simpa using hc), hz]
      simp

end Sys2Proof.Machine
end

