-- ==== Sys2Proof/Laws/Encoding.lean ====
section
/-! SUPPORT. The request word as a number, and its fields as numbers: the lemmas from which the round trips follow. -/

namespace Sys2Proof

/-- The request word of R70 by weights: op from bit 64, a from bit 32, b from bit 0. -/
theorem toWord_toNat (r : Request) : r.toWord.toNat = r.op.toNat * 2 ^ 64 + r.a.toNat * 2 ^ 32 + r.b.toNat := by
  have ha := r.a.isLt
  have hb := r.b.isLt
  rw [Request.toWord, BitVec.toNat_append, BitVec.toNat_append, ← Nat.shiftLeft_add_eq_or_of_lt hb,
    ← Nat.shiftLeft_add_eq_or_of_lt ha]
  simp only [Nat.shiftLeft_eq]
  ring

theorem ofWord_op_toNat (w : ReqWord) : (Request.ofWord w).op.toNat = w.toNat / 2 ^ 64 % 2 ^ 4 := by
  simp [Request.ofWord, BitVec.extractLsb'_toNat, Nat.shiftRight_eq_div_pow]

theorem ofWord_a_toNat (w : ReqWord) : (Request.ofWord w).a.toNat = w.toNat / 2 ^ 32 % 2 ^ 32 := by
  simp [Request.ofWord, BitVec.extractLsb'_toNat, Nat.shiftRight_eq_div_pow]

theorem ofWord_b_toNat (w : ReqWord) : (Request.ofWord w).b.toNat = w.toNat % 2 ^ 32 := by
  simp [Request.ofWord, BitVec.extractLsb'_toNat]

/-- A request is read back from its word. -/
theorem ofWord_toWord (r : Request) : Request.ofWord r.toWord = r := by
  obtain ⟨op, a, b⟩ := r
  have hop := op.isLt
  have ha := a.isLt
  have hb := b.isLt
  have h := toWord_toNat ⟨op, a, b⟩
  rw [Request.ofWord, Request.mk.injEq]
  refine ⟨?_, ?_, ?_⟩ <;> apply BitVec.eq_of_toNat_eq <;>
    simp only [BitVec.extractLsb'_toNat, Nat.shiftRight_eq_div_pow, h] <;> omega

end Sys2Proof
end

