-- ==== Sys2Proof/Laws/Integer.lean ====
section
/-! SUPPORT. What the integer primitives compute, said once: the product, the quotient and remainder, the count. -/

namespace Sys2Proof.Machine

theorem imulAcc_toNat (a b : Word) (k : Nat) (hk : k ≤ 32) : (imulAcc a b k).toNat = a.toNat * (b.toNat % 2 ^ k) := by
  induction k with
  | zero => simp [imulAcc, Nat.mod_one]
  | succ k ih =>
    have ha := a.isLt
    have hp : 2 ^ k ≤ 2 ^ 31 := Nat.pow_le_pow_right (by omega) (by omega)
    have hlt : b.toNat % 2 ^ k < 2 ^ k := Nat.mod_lt _ (by positivity)
    have hmod : b.toNat % 2 ^ (k + 1) = b.toNat % 2 ^ k + 2 ^ k * (b.getLsbD k).toNat := by
      rw [Nat.mod_pow_succ, BitVec.getLsbD, Nat.testBit_eq_decide_div_mod_eq]
      rcases Nat.mod_two_eq_zero_or_one (b.toNat / 2 ^ k) with h | h <;> simp [h]
    rw [imulAcc, hmod]
    cases hb : b.getLsbD k
    · simpa using ih (by omega)
    · have h1 : a.toNat * (b.toNat % 2 ^ k) ≤ 2 ^ 32 * 2 ^ k := Nat.mul_le_mul (by omega) (by omega)
      have h2 : a.toNat * 2 ^ k ≤ 2 ^ 32 * 2 ^ 31 := Nat.mul_le_mul (by omega) hp
      have h3 : a.toNat * (b.toNat % 2 ^ k) + a.toNat * 2 ^ k < 2 ^ 64 := by
        have : b.toNat % 2 ^ k + 2 ^ k < 2 ^ 32 := by omega
        calc a.toNat * (b.toNat % 2 ^ k) + a.toNat * 2 ^ k = a.toNat * (b.toNat % 2 ^ k + 2 ^ k) := by ring
          _ ≤ a.toNat * 2 ^ 32 := Nat.mul_le_mul_left _ (by omega)
          _ < 2 ^ 64 := by omega
      have hs : (a.setWidth 64 <<< k).toNat = a.toNat * 2 ^ k := by
        rw [BitVec.toNat_shiftLeft, BitVec.toNat_setWidth, Nat.shiftLeft_eq, Nat.mod_eq_of_lt (by omega : a.toNat < 2 ^ 64),
          Nat.mod_eq_of_lt (by omega)]
      rw [if_pos rfl, BitVec.toNat_add, ih (by omega), hs, Nat.mod_eq_of_lt h3]
      simp [Nat.mul_add]

/-- The shift-add loop gives the exact product: no bit is lost (R100). -/
theorem imul_toNat (a b : Word) : (imul a b).toNat = a.toNat * b.toNat := by
  rw [imul, imulAcc_toNat a b 32 (Nat.le_refl _), Nat.mod_eq_of_lt b.isLt]

/-- Bringing in a dividend bit below a shifted remainder is an addition. -/
theorem shift_in_bit (r n k : Nat) : (r <<< 1) ||| ((n >>> k) % 2) = 2 * r + n / 2 ^ k % 2 := by
  rw [← Nat.shiftLeft_add_eq_or_of_lt (by omega), Nat.shiftLeft_eq, Nat.shiftRight_eq_div_pow]
  ring

/-- The restoring loop (R102) from a sound intermediate state: `q` holds the quotient of the bits brought in so far, `r < d` their
remainder. -/
theorem restoringLoop_eq (n d : Nat) (hd : 0 < d) (k q r : Nat) (hr : r < d)
    (hn : n / 2 ^ k = q / 2 ^ k * d + r) (hq : q % 2 ^ k = 0) : restoringLoop n d k q r = (n / d, n % d) := by
  induction k generalizing q r with
  | zero =>
    simp only [pow_zero, Nat.div_one] at hn
    subst hn
    rw [restoringLoop, Nat.mul_comm q d, Nat.mul_add_div hd, Nat.mul_add_mod, Nat.div_eq_of_lt hr, Nat.mod_eq_of_lt hr,
      Nat.add_zero]
  | succ k ih =>
    have hpos : 0 < 2 ^ k := by positivity
    obtain ⟨c, rfl⟩ : ∃ c, q = c * 2 ^ (k + 1) := ⟨q / 2 ^ (k + 1), (Nat.div_mul_cancel (Nat.dvd_of_mod_eq_zero hq)).symm⟩
    rw [Nat.mul_div_cancel _ (by positivity)] at hn
    have hc : c * 2 ^ (k + 1) = 2 * c * 2 ^ k := by rw [pow_succ]; ring
    have hbit : n / 2 ^ k = 2 * (n / 2 ^ (k + 1)) + n / 2 ^ k % 2 := by
      rw [pow_succ, ← Nat.div_div_eq_div_mul]
      omega
    have hstep : n / 2 ^ k = 2 * c * d + (2 * r + n / 2 ^ k % 2) := by rw [hn] at hbit; rw [hbit]; ring_nf; omega
    have hlt2 : n / 2 ^ k % 2 < 2 := Nat.mod_lt _ (by omega)
    simp only [restoringLoop, shift_in_bit]
    split
    · have hor : c * 2 ^ (k + 1) ||| 1 <<< k = (2 * c + 1) * 2 ^ k := by
        have h := Nat.shiftLeft_add_eq_or_of_lt (i := k + 1) (b := 2 ^ k) (by rw [pow_succ]; omega) c
        rw [Nat.shiftLeft_eq] at h
        rw [Nat.shiftLeft_eq, one_mul, ← h, hc]
        ring
      apply ih _ _ (by omega)
      · rw [hor, Nat.mul_div_cancel _ hpos]
        have : (2 * c + 1) * d = 2 * c * d + d := by ring
        omega
      · rw [hor]
        exact Nat.mul_mod_left _ _
    · apply ih _ _ (by omega)
      · rw [hc, Nat.mul_div_cancel _ hpos]
        exact hstep
      · rw [hc]
        exact Nat.mul_mod_left _ _

/-- `udivmod` is division with remainder, and (0, 0) for a zero divisor (R102). -/
theorem udivmod_toNat (n d : Word) (hd : d ≠ 0#32) :
    (udivmod n d).1.toNat = n.toNat / d.toNat ∧ (udivmod n d).2.toNat = n.toNat % d.toNat := by
  have hpos : 0 < d.toNat := Nat.pos_of_ne_zero fun h => hd (BitVec.eq_of_toNat_eq (by simpa using h))
  have hn := n.isLt
  have hloop := restoringLoop_eq n.toNat d.toNat hpos 32 0 0 hpos (by rw [Nat.div_eq_of_lt hn]; simp) (by simp)
  have h1 : n.toNat / d.toNat < 2 ^ 32 := lt_of_le_of_lt (Nat.div_le_self _ _) hn
  have h2 : n.toNat % d.toNat < 2 ^ 32 := lt_of_le_of_lt (Nat.mod_le _ _) hn
  simp only [udivmod, if_neg hd, hloop, BitVec.toNat_ofNat, Nat.mod_eq_of_lt h1, Nat.mod_eq_of_lt h2, and_self]

theorem udivmod_zero (n : Word) : udivmod n 0#32 = (0#32, 0#32) := by simp [udivmod]

/-- The search for the top set bit finds it. -/
theorem topSetBit_eq (x : Word) (k : Nat) (hx : x.toNat ≠ 0) (hk : x.toNat < 2 ^ k) :
    topSetBit x k = some (Nat.log2 x.toNat) := by
  induction k with
  | zero => omega
  | succ k ih =>
    rw [topSetBit]
    by_cases hlt : x.toNat < 2 ^ k
    · rw [if_neg (by rw [BitVec.getLsbD, Nat.testBit_lt_two_pow hlt]; simp)]
      exact ih hlt
    · have h1 : x.toNat / 2 ^ k = 1 := by
        rw [Nat.div_eq_iff (by positivity)]
        rw [pow_succ] at hk
        omega
      rw [if_pos (by simp [BitVec.getLsbD, Nat.testBit_eq_decide_div_mod_eq, h1])]
      exact congrArg some (Eq.symm ((Nat.log2_eq_iff hx).2 ⟨by omega, hk⟩))

/-- `lzc` counts from the top set bit (R106). -/
theorem lzc_eq (x : Word) (hx : x ≠ 0#32) : lzc x = 31 - Nat.log2 x.toNat := by
  have h0 : x.toNat ≠ 0 := fun h => hx (BitVec.eq_of_toNat_eq (by simpa using h))
  rw [lzc, topSetBit_eq x 32 h0 x.isLt]

theorem lzc_zero : lzc 0#32 = 32 := by decide

end Sys2Proof.Machine
end

