-- ==== Sys2Proof/Laws/Operands.lean ====
section
/-! SUPPORT. Operand assembly and result placement as numbers, and the fields of the constant patterns. -/

namespace Sys2Proof.Machine

@[simp] theorem bf16Operand_toNat (port : Word) : (bf16Operand port).toNat = port.toNat % 2 ^ 16 := by
  simp [bf16Operand, BitVec.extractLsb'_toNat]

/-- Equal low halves are equal operands: the high half is ignored (R72). -/
theorem bf16Operand_congr {p q : Word} (h : p.extractLsb' 0 16 = q.extractLsb' 0 16) : bf16Operand p = bf16Operand q := h

@[simp] theorem intOperand_eq (port : Word) : intOperand port = port := rfl

@[simp] theorem bf16Result_eq (v : Bf16) : bf16Result v = v.setWidth 64 := rfl

@[simp] theorem wordResult_eq (v : Word) : wordResult v = v.setWidth 64 := rfl

@[simp] theorem predicateResult_eq (p : Bool) : predicateResult p = if p then 1#64 else 0#64 := rfl

/-- The pair of IDIV by weights: the high word from bit 32 (R73). -/
theorem pairResult_toNat (high low : Word) : (pairResult high low).toNat = high.toNat * 2 ^ 32 + low.toNat := by
  rw [pairResult, BitVec.toNat_append, ← Nat.shiftLeft_add_eq_or_of_lt low.isLt, Nat.shiftLeft_eq]

@[simp] theorem sign_infinity (s : BitVec 1) : sign (infinity s) = s := sign_pack _ _ _

@[simp] theorem sign_signedZero (s : BitVec 1) : sign (signedZero s) = s := sign_pack _ _ _

@[simp] theorem isNan_infinity (s : BitVec 1) : isNan (infinity s) = false := by simp [isNan, infinity]

@[simp] theorem isInf_infinity (s : BitVec 1) : isInf (infinity s) = true := by simp [isInf, infinity]

@[simp] theorem isZero_signedZero (s : BitVec 1) : isZero (signedZero s) = true := by simp [isZero, signedZero]

end Sys2Proof.Machine
end

