-- ==== Sys2Proof/Laws/PerInstr.lean ====
section
/-! SUPPORT. Statements about every instruction, proved constructor by constructor. The one family, `RequestFields`, says what
request an instruction encodes to: its code is the row's of 30_encoding.md R71, its operands are carried whole. -/

namespace Sys2Proof.Laws

/-- The request of an instruction holds its code and both operands, and is decoded to the instruction again. -/
def RequestFields.Statement (i : Instr) : Prop :=
  encode i = ⟨i.opcode, i.portA, i.portB⟩ ∧ decode ⟨i.opcode, i.portA, i.portB⟩ = i

theorem RequestFields.bf16Add (a b : Word) : RequestFields.Statement (.bf16Add a b) := ⟨rfl, rfl⟩
theorem RequestFields.bf16Sub (a b : Word) : RequestFields.Statement (.bf16Sub a b) := ⟨rfl, rfl⟩
theorem RequestFields.bf16Mul (a b : Word) : RequestFields.Statement (.bf16Mul a b) := ⟨rfl, rfl⟩
theorem RequestFields.bf16Div (a b : Word) : RequestFields.Statement (.bf16Div a b) := ⟨rfl, rfl⟩
theorem RequestFields.bf16IsNan (a b : Word) : RequestFields.Statement (.bf16IsNan a b) := ⟨rfl, rfl⟩
theorem RequestFields.bf16IsInf (a b : Word) : RequestFields.Statement (.bf16IsInf a b) := ⟨rfl, rfl⟩
theorem RequestFields.bf16IsZero (a b : Word) : RequestFields.Statement (.bf16IsZero a b) := ⟨rfl, rfl⟩
theorem RequestFields.reserved7 (a b : Word) : RequestFields.Statement (.reserved7 a b) := ⟨rfl, rfl⟩
theorem RequestFields.imul (a b : Word) : RequestFields.Statement (.imul a b) := ⟨rfl, rfl⟩
theorem RequestFields.idiv (a b : Word) : RequestFields.Statement (.idiv a b) := ⟨rfl, rfl⟩
theorem RequestFields.imod (a b : Word) : RequestFields.Statement (.imod a b) := ⟨rfl, rfl⟩
theorem RequestFields.lzc (a b : Word) : RequestFields.Statement (.lzc a b) := ⟨rfl, rfl⟩
theorem RequestFields.rsqrt (a b : Word) : RequestFields.Statement (.rsqrt a b) := ⟨rfl, rfl⟩
theorem RequestFields.reservedD (a b : Word) : RequestFields.Statement (.reservedD a b) := ⟨rfl, rfl⟩
theorem RequestFields.reservedE (a b : Word) : RequestFields.Statement (.reservedE a b) := ⟨rfl, rfl⟩
theorem RequestFields.reservedF (a b : Word) : RequestFields.Statement (.reservedF a b) := ⟨rfl, rfl⟩

end Sys2Proof.Laws
end

