-- ==== Sys2Proof/Laws/Rsqrt.lean ====
section
/-! SUPPORT. The parts of RSQRT on natural numbers: the table index, the fraction, the interpolation, one Newton-Raphson pass. -/

namespace Sys2Proof.Machine

/-- The index of the table is the position of the top set bit (R223). -/
theorem topBitIndex_val (x : Word) (hx : x ≠ 0#32) : (topBitIndex x).val = Nat.log2 x.toNat := by
  have h0 : x.toNat ≠ 0 := fun h => hx (BitVec.eq_of_toNat_eq (by simpa using h))
  have hlt : Nat.log2 x.toNat < 32 := (Nat.log2_lt h0).2 x.isLt
  simp only [topBitIndex, lzc_eq x hx]
  omega

theorem fraction_eq (x : Word) (e : Nat) : fraction x e = fractionNat x.toNat e := by
  simp [fraction, fractionNat, Nat.shiftLeft_eq, Nat.shiftRight_eq_div_pow]

/-- The interpolation on natural numbers, with its subtractions modulo `2^32` (R224). -/
theorem interpolate_toNat (y yNext : Word) (frac : Nat) (hf : frac < 2 ^ 32) :
    (interpolate y yNext frac).toNat = interpolateNat y.toNat yNext.toNat frac := by
  have hd : 2 ^ 32 - yNext.toNat + y.toNat = y.toNat + 2 ^ 32 - yNext.toNat := by omega
  simp only [interpolate, interpolateNat, BitVec.toNat_sub, BitVec.toNat_setWidth, BitVec.toNat_ushiftRight, imul_toNat,
    BitVec.toNat_ofNat, Nat.mod_eq_of_lt hf, Nat.shiftRight_eq_div_pow, hd]
  have hlt : (y.toNat + 2 ^ 32 - yNext.toNat) % 2 ^ 32 * frac / 2 ^ 16 % 2 ^ 32 < 2 ^ 32 := Nat.mod_lt _ (by norm_num)
  congr 1
  omega

/-- One pass on natural numbers, with its 32-bit intermediates (R220 step 5). -/
theorem newtonPass_toNat (x y : Word) : (newtonPass x y).toNat = newtonNat x.toNat y.toNat := by
  have h3 : ((3#32 <<< 16 : Word)).toNat = 3 * 2 ^ 16 := by decide
  simp only [newtonPass, newtonNat, BitVec.toNat_setWidth, BitVec.toNat_ushiftRight, imul_toNat, BitVec.toNat_sub, h3,
    Nat.shiftRight_eq_div_pow]
  have hlt : x.toNat * (y.toNat * y.toNat % 2 ^ 32) / 2 ^ 16 % 2 ^ 32 < 2 ^ 32 := Nat.mod_lt _ (by norm_num)
  congr 4
  omega

end Sys2Proof.Machine
end

