-- ==== Sys2Proof/Laws/State.lean ====
section
/-! SUPPORT. One lemma per field and update of the state, each true by unfolding, so that no proof unfolds a record update. -/

namespace Sys2Proof.Machine

variable (s : State)

/-! ### `complete`. Completion (R33). -/

@[simp] theorem complete_st (r : DWord) (flag illegal : Bool) : (s.complete r flag illegal).st = .done := rfl
@[simp] theorem complete_opQ (r : DWord) (flag illegal : Bool) : (s.complete r flag illegal).opQ = s.opQ := rfl
@[simp] theorem complete_aQ (r : DWord) (flag illegal : Bool) : (s.complete r flag illegal).aQ = s.aQ := rfl
@[simp] theorem complete_bQ (r : DWord) (flag illegal : Bool) : (s.complete r flag illegal).bQ = s.bQ := rfl
@[simp] theorem complete_rQ (r : DWord) (flag illegal : Bool) : (s.complete r flag illegal).rQ = r := rfl
@[simp] theorem complete_flagQ (r : DWord) (flag illegal : Bool) : (s.complete r flag illegal).flagQ = flag := rfl
@[simp] theorem complete_illegalQ (r : DWord) (flag illegal : Bool) : (s.complete r flag illegal).illegalQ = illegal := rfl
@[simp] theorem complete_rom (r : DWord) (flag illegal : Bool) : (s.complete r flag illegal).rom = s.rom := rfl
@[simp] theorem complete_canonNan (r : DWord) (flag illegal : Bool) : (s.complete r flag illegal).canonNan = s.canonNan := rfl
@[simp] theorem complete_edgesLeft (r : DWord) (flag illegal : Bool) : (s.complete r flag illegal).edgesLeft = s.edgesLeft := rfl
@[simp] theorem complete_inputs (r : DWord) (flag illegal : Bool) : (s.complete r flag illegal).inputs = s.inputs := rfl
@[simp] theorem complete_edges (r : DWord) (flag illegal : Bool) : (s.complete r flag illegal).edges = s.edges := rfl

/-! ### `completeIllegal`. The illegal response (R76). -/

@[simp] theorem completeIllegal_st : s.completeIllegal.st = .done := rfl
@[simp] theorem completeIllegal_opQ : s.completeIllegal.opQ = s.opQ := rfl
@[simp] theorem completeIllegal_aQ : s.completeIllegal.aQ = s.aQ := rfl
@[simp] theorem completeIllegal_bQ : s.completeIllegal.bQ = s.bQ := rfl
@[simp] theorem completeIllegal_rQ : s.completeIllegal.rQ = 0#64 := rfl
@[simp] theorem completeIllegal_flagQ : s.completeIllegal.flagQ = false := rfl
@[simp] theorem completeIllegal_illegalQ : s.completeIllegal.illegalQ = true := rfl
@[simp] theorem completeIllegal_rom : s.completeIllegal.rom = s.rom := rfl
@[simp] theorem completeIllegal_canonNan : s.completeIllegal.canonNan = s.canonNan := rfl
@[simp] theorem completeIllegal_edgesLeft : s.completeIllegal.edgesLeft = s.edgesLeft := rfl
@[simp] theorem completeIllegal_inputs : s.completeIllegal.inputs = s.inputs := rfl
@[simp] theorem completeIllegal_edges : s.completeIllegal.edges = s.edges := rfl

/-! ### `endEdge`. The end of an edge. -/

@[simp] theorem endEdge_st : s.endEdge.st = s.st := rfl
@[simp] theorem endEdge_opQ : s.endEdge.opQ = s.opQ := rfl
@[simp] theorem endEdge_aQ : s.endEdge.aQ = s.aQ := rfl
@[simp] theorem endEdge_bQ : s.endEdge.bQ = s.bQ := rfl
@[simp] theorem endEdge_rQ : s.endEdge.rQ = s.rQ := rfl
@[simp] theorem endEdge_flagQ : s.endEdge.flagQ = s.flagQ := rfl
@[simp] theorem endEdge_illegalQ : s.endEdge.illegalQ = s.illegalQ := rfl
@[simp] theorem endEdge_rom : s.endEdge.rom = s.rom := rfl
@[simp] theorem endEdge_canonNan : s.endEdge.canonNan = s.canonNan := rfl
@[simp] theorem endEdge_edgesLeft : s.endEdge.edgesLeft = s.edgesLeft := rfl
@[simp] theorem endEdge_inputs : s.endEdge.inputs = s.inputs.tail := rfl
@[simp] theorem endEdge_edges : s.endEdge.edges = s.edges + 1 := rfl

/-! ### `resetEdge`. A reset edge (R36). -/

@[simp] theorem resetEdge_st : s.resetEdge.st = .idle := rfl
@[simp] theorem resetEdge_opQ : s.resetEdge.opQ = s.opQ := rfl
@[simp] theorem resetEdge_aQ : s.resetEdge.aQ = s.aQ := rfl
@[simp] theorem resetEdge_bQ : s.resetEdge.bQ = s.bQ := rfl
@[simp] theorem resetEdge_rQ : s.resetEdge.rQ = s.rQ := rfl
@[simp] theorem resetEdge_flagQ : s.resetEdge.flagQ = s.flagQ := rfl
@[simp] theorem resetEdge_illegalQ : s.resetEdge.illegalQ = s.illegalQ := rfl
@[simp] theorem resetEdge_rom : s.resetEdge.rom = s.rom := rfl
@[simp] theorem resetEdge_canonNan : s.resetEdge.canonNan = s.canonNan := rfl
@[simp] theorem resetEdge_edgesLeft : s.resetEdge.edgesLeft = 0 := rfl
@[simp] theorem resetEdge_inputs : s.resetEdge.inputs = s.inputs := rfl
@[simp] theorem resetEdge_edges : s.resetEdge.edges = s.edges := rfl

/-! ### `acceptRequest`. Acceptance (R32). -/

@[simp] theorem acceptRequest_st (p : Inputs) : (s.acceptRequest p).st = .busy := rfl
@[simp] theorem acceptRequest_opQ (p : Inputs) : (s.acceptRequest p).opQ = p.reqOp := rfl
@[simp] theorem acceptRequest_aQ (p : Inputs) : (s.acceptRequest p).aQ = p.reqA := rfl
@[simp] theorem acceptRequest_bQ (p : Inputs) : (s.acceptRequest p).bQ = p.reqB := rfl
@[simp] theorem acceptRequest_rQ (p : Inputs) : (s.acceptRequest p).rQ = s.rQ := rfl
@[simp] theorem acceptRequest_flagQ (p : Inputs) : (s.acceptRequest p).flagQ = s.flagQ := rfl
@[simp] theorem acceptRequest_illegalQ (p : Inputs) : (s.acceptRequest p).illegalQ = s.illegalQ := rfl
@[simp] theorem acceptRequest_rom (p : Inputs) : (s.acceptRequest p).rom = s.rom := rfl
@[simp] theorem acceptRequest_canonNan (p : Inputs) : (s.acceptRequest p).canonNan = s.canonNan := rfl
@[simp] theorem acceptRequest_edgesLeft (p : Inputs) : (s.acceptRequest p).edgesLeft = Config.latency p.reqOp - 1 := rfl
@[simp] theorem acceptRequest_inputs (p : Inputs) : (s.acceptRequest p).inputs = s.inputs := rfl
@[simp] theorem acceptRequest_edges (p : Inputs) : (s.acceptRequest p).edges = s.edges := rfl

/-! ### `waitEdge`. An edge of `BUSY` before the completing one (R33). -/

@[simp] theorem waitEdge_st : s.waitEdge.st = s.st := rfl
@[simp] theorem waitEdge_opQ : s.waitEdge.opQ = s.opQ := rfl
@[simp] theorem waitEdge_aQ : s.waitEdge.aQ = s.aQ := rfl
@[simp] theorem waitEdge_bQ : s.waitEdge.bQ = s.bQ := rfl
@[simp] theorem waitEdge_rQ : s.waitEdge.rQ = s.rQ := rfl
@[simp] theorem waitEdge_flagQ : s.waitEdge.flagQ = s.flagQ := rfl
@[simp] theorem waitEdge_illegalQ : s.waitEdge.illegalQ = s.illegalQ := rfl
@[simp] theorem waitEdge_rom : s.waitEdge.rom = s.rom := rfl
@[simp] theorem waitEdge_canonNan : s.waitEdge.canonNan = s.canonNan := rfl
@[simp] theorem waitEdge_edgesLeft : s.waitEdge.edgesLeft = s.edgesLeft - 1 := rfl
@[simp] theorem waitEdge_inputs : s.waitEdge.inputs = s.inputs := rfl
@[simp] theorem waitEdge_edges : s.waitEdge.edges = s.edges := rfl

/-! ### `takeResponse`. The response is taken (R34). -/

@[simp] theorem takeResponse_st : s.takeResponse.st = .idle := rfl
@[simp] theorem takeResponse_opQ : s.takeResponse.opQ = s.opQ := rfl
@[simp] theorem takeResponse_aQ : s.takeResponse.aQ = s.aQ := rfl
@[simp] theorem takeResponse_bQ : s.takeResponse.bQ = s.bQ := rfl
@[simp] theorem takeResponse_rQ : s.takeResponse.rQ = s.rQ := rfl
@[simp] theorem takeResponse_flagQ : s.takeResponse.flagQ = s.flagQ := rfl
@[simp] theorem takeResponse_illegalQ : s.takeResponse.illegalQ = s.illegalQ := rfl
@[simp] theorem takeResponse_rom : s.takeResponse.rom = s.rom := rfl
@[simp] theorem takeResponse_canonNan : s.takeResponse.canonNan = s.canonNan := rfl
@[simp] theorem takeResponse_edgesLeft : s.takeResponse.edgesLeft = s.edgesLeft := rfl
@[simp] theorem takeResponse_inputs : s.takeResponse.inputs = s.inputs := rfl
@[simp] theorem takeResponse_edges : s.takeResponse.edges = s.edges := rfl

/-! ### `placeRequest`. A request placed for the next edge (log 2). -/

@[simp] theorem placeRequest_st (q : Request) : (s.placeRequest q).st = .busy := rfl
@[simp] theorem placeRequest_opQ (q : Request) : (s.placeRequest q).opQ = q.op := rfl
@[simp] theorem placeRequest_aQ (q : Request) : (s.placeRequest q).aQ = q.a := rfl
@[simp] theorem placeRequest_bQ (q : Request) : (s.placeRequest q).bQ = q.b := rfl
@[simp] theorem placeRequest_rQ (q : Request) : (s.placeRequest q).rQ = s.rQ := rfl
@[simp] theorem placeRequest_flagQ (q : Request) : (s.placeRequest q).flagQ = s.flagQ := rfl
@[simp] theorem placeRequest_illegalQ (q : Request) : (s.placeRequest q).illegalQ = s.illegalQ := rfl
@[simp] theorem placeRequest_rom (q : Request) : (s.placeRequest q).rom = s.rom := rfl
@[simp] theorem placeRequest_canonNan (q : Request) : (s.placeRequest q).canonNan = s.canonNan := rfl
@[simp] theorem placeRequest_edgesLeft (q : Request) : (s.placeRequest q).edgesLeft = 0 := rfl
@[simp] theorem placeRequest_inputs (q : Request) : (s.placeRequest q).inputs = keepResetLow s.inputs := rfl
@[simp] theorem placeRequest_edges (q : Request) : (s.placeRequest q).edges = s.edges := rfl

/-! ### What is read off a state -/

@[simp] theorem completeIllegal_eq : s.completeIllegal = s.complete 0#64 false true := rfl
theorem pins_of_nil {s : State} (h : s.inputs = []) : s.pins = ⟨false, false, 0#4, 0#32, 0#32, false⟩ := by simp [State.pins, h]
theorem pins_of_cons {s : State} {p : Inputs} {ps : List Inputs} (h : s.inputs = p :: ps) : s.pins = p := by
  simp [State.pins, h]
@[simp] theorem request_op : s.request.op = s.opQ := rfl
@[simp] theorem request_a : s.request.a = s.aQ := rfl
@[simp] theorem request_b : s.request.b = s.bQ := rfl
@[simp] theorem endEdge_request : s.endEdge.request = s.request := rfl
@[simp] theorem acceptRequest_request (p : Inputs) : (s.acceptRequest p).request = ⟨p.reqOp, p.reqA, p.reqB⟩ := rfl
@[simp] theorem placeRequest_request (q : Request) : (s.placeRequest q).request = q := rfl
@[simp] theorem placeRequest_rst (q : Request) : (s.placeRequest q).pins.rst = false := by
  cases h : s.inputs <;> simp [State.pins, State.placeRequest, keepResetLow, h]

end Sys2Proof.Machine
end

