-- ==== Sys2Proof/Laws/Step.lean ====
section
/-! SUPPORT. Everything an instruction and an edge can do, said once: `exec_next` for the sixteen meanings, `step_next_cases` for the
step, and the equation of the step for each kind of edge. -/

namespace Sys2Proof.Machine

/-- Every instruction completes, in every state: a response is written, `ST` becomes `DONE`, nothing else changes. -/
theorem exec_next (i : Instr) (s : State) :
    ∃ (r : DWord) (flag illegal : Bool), exec i s = .next (s.complete r flag illegal) := by
  cases i <;> exact ⟨_, _, _, rfl⟩

section edges

variable {s : State}

theorem edgeKind_reset (h : s.pins.rst = true) : s.edgeKind = .reset := by simp [State.edgeKind, h]

theorem edgeKind_idle_accept (hr : s.pins.rst = false) (hs : s.st = .idle) (hv : s.pins.reqValid = true) :
    s.edgeKind = .accept := by simp [State.edgeKind, hr, hs, hv]

theorem edgeKind_idle_hold (hr : s.pins.rst = false) (hs : s.st = .idle) (hv : s.pins.reqValid = false) :
    s.edgeKind = .hold := by simp [State.edgeKind, hr, hs, hv]

theorem edgeKind_busy_complete (hr : s.pins.rst = false) (hs : s.st = .busy) (hw : s.edgesLeft = 0) :
    s.edgeKind = .complete := by simp [State.edgeKind, hr, hs, hw]

theorem edgeKind_busy_wait (hr : s.pins.rst = false) (hs : s.st = .busy) (hw : s.edgesLeft ≠ 0) :
    s.edgeKind = .wait := by simp [State.edgeKind, hr, hs, hw]

theorem edgeKind_done_take (hr : s.pins.rst = false) (hs : s.st = .done) (hv : s.pins.rspReady = true) :
    s.edgeKind = .take := by simp [State.edgeKind, hr, hs, hv]

theorem edgeKind_done_hold (hr : s.pins.rst = false) (hs : s.st = .done) (hv : s.pins.rspReady = false) :
    s.edgeKind = .hold := by simp [State.edgeKind, hr, hs, hv]

theorem edgeKind_eleven (hr : s.pins.rst = false) (hs : s.st = .eleven) : s.edgeKind = .eleven := by
  simp [State.edgeKind, hr, hs]

/-- What a step can do, guards included (R39). -/
theorem step_next_cases {t : State} (h : step s = .next t) :
    (s.pins.rst = true ∧ t = s.endEdge.resetEdge) ∨
    (s.pins.rst = false ∧
      ((s.st = .idle ∧ s.pins.reqValid = false ∧ t = s.endEdge) ∨
       (s.st = .idle ∧ s.pins.reqValid = true ∧ t = s.endEdge.acceptRequest s.pins) ∨
       (s.st = .busy ∧ s.edgesLeft ≠ 0 ∧ t = s.endEdge.waitEdge) ∨
       (s.st = .busy ∧ s.edgesLeft = 0 ∧ exec (decode s.request) s.endEdge = .next t) ∨
       (s.st = .done ∧ s.pins.rspReady = false ∧ t = s.endEdge) ∨
       (s.st = .done ∧ s.pins.rspReady = true ∧ t = s.endEdge.takeResponse))) := by
  cases hr : s.pins.rst
  · refine .inr ⟨rfl, ?_⟩
    cases hs : s.st
    · cases hv : s.pins.reqValid
      · rw [step, edgeKind_idle_hold hr hs hv] at h
        cases h
        simp
      · rw [step, edgeKind_idle_accept hr hs hv] at h
        cases h
        simp
    · by_cases hw : s.edgesLeft = 0
      · rw [step, edgeKind_busy_complete hr hs hw] at h
        simp [hw, h]
      · rw [step, edgeKind_busy_wait hr hs hw] at h
        cases h
        simp [hw]
    · cases hv : s.pins.rspReady
      · rw [step, edgeKind_done_hold hr hs hv] at h
        cases h
        simp
      · rw [step, edgeKind_done_take hr hs hv] at h
        cases h
        simp
    · rw [step, edgeKind_eleven hr hs] at h
      cases h
  · rw [step, edgeKind_reset hr] at h
    cases h
    exact .inl ⟨rfl, rfl⟩

end edges

end Sys2Proof.Machine
end

