-- ==== Sys2Proof/WellFormed.lean ====
section
/-! DEFINITION. The form in which a listing writes an instruction: every operand bit the operation ignores is 0 (30_encoding.md
R72, R77). This is a convention of hosts and listings. THE UNIT DOES NOT CHECK IT: every request has a meaning, whatever its
ignored bits are (R72, R75), so decoding, encoding and execution are defined on every `Instr`. -/

namespace Sys2Proof

/-- A bf16 operand is written as its 16-bit pattern, zero-extended (R77). -/
def Word.isBf16Listing (w : Word) : Bool := decide (w.toNat < 2 ^ 16)

/-- An ignored operand is encoded as 0 (R77). -/
def Word.isIgnoredListing (w : Word) : Bool := w == 0#32

/-- The listing form of R77, operation by operation. -/
def Instr.wellFormed : Instr → Bool
  | .bf16Add a b => a.isBf16Listing && b.isBf16Listing
  | .bf16Sub a b => a.isBf16Listing && b.isBf16Listing
  | .bf16Mul a b => a.isBf16Listing && b.isBf16Listing
  | .bf16Div a b => a.isBf16Listing && b.isBf16Listing
  | .bf16IsNan a b => a.isBf16Listing && b.isIgnoredListing
  | .bf16IsInf a b => a.isBf16Listing && b.isIgnoredListing
  | .bf16IsZero a b => a.isBf16Listing && b.isIgnoredListing
  | .reserved7 a b => a.isIgnoredListing && b.isIgnoredListing
  | .imul _ _ => true
  | .idiv _ _ => true
  | .imod _ _ => true
  | .lzc _ b => b.isIgnoredListing
  | .rsqrt _ b => b.isIgnoredListing
  | .reservedD a b => a.isIgnoredListing && b.isIgnoredListing
  | .reservedE a b => a.isIgnoredListing && b.isIgnoredListing
  | .reservedF a b => a.isIgnoredListing && b.isIgnoredListing

end Sys2Proof
end

