-- ==== Sys2Proof/Tests/Slice0.lean ====
section
/-! SUPPORT. Tests. Expected words and results are those of spec/95_test_vectors.md or of the corner cases of the operation rules,
unless a comment says otherwise. The second half gives, for each statement of the obligations with hypotheses, values that meet
them together. -/

namespace Sys2Proof.Tests

open Sys2Proof Sys2Proof.Machine

/-! ### The listing form (R72, R77): each check refuses an ill-formed term -/

theorem test_wf_accepts_listed : (Instr.bf16Add 0x3F80#32 0x3F80#32).wellFormed = true := by decide
theorem test_wf_refuses_wide_bf16_a : (Instr.bf16Add 0x13F80#32 0#32).wellFormed = false := by decide
theorem test_wf_refuses_wide_bf16_b : (Instr.bf16Div 0#32 0x10000#32).wellFormed = false := by decide
theorem test_wf_refuses_wide_classifier : (Instr.bf16IsZero 0x10000#32 0#32).wellFormed = false := by decide
theorem test_wf_refuses_unary_b : (Instr.lzc 5#32 1#32).wellFormed = false := by decide
theorem test_wf_refuses_reserved_operand : (Instr.reservedD 1#32 0#32).wellFormed = false := by decide
theorem test_wf_accepts_any_integer_operand : (Instr.imul 0xFFFFFFFF#32 0xFFFFFFFF#32).wellFormed = true := by decide

/-! ### Decoding: one request word W for each row of the operation table, as the spec lists it -/

theorem test_decode_add : decodeWord 0x0_00003F80_00003F80#68 = .bf16Add 0x3F80#32 0x3F80#32 := by decide
theorem test_decode_sub : decodeWord 0x1_00004040_00004000#68 = .bf16Sub 0x4040#32 0x4000#32 := by decide
theorem test_decode_mul : decodeWord 0x2_00004000_00004040#68 = .bf16Mul 0x4000#32 0x4040#32 := by decide
theorem test_decode_div : decodeWord 0x3_000040C0_00004000#68 = .bf16Div 0x40C0#32 0x4000#32 := by decide
theorem test_decode_isnan : decodeWord 0x4_00007F81_00000000#68 = .bf16IsNan 0x7F81#32 0#32 := by decide
theorem test_decode_isinf : decodeWord 0x5_0000FF80_00000000#68 = .bf16IsInf 0xFF80#32 0#32 := by decide
theorem test_decode_iszero : decodeWord 0x6_00010000_00000000#68 = .bf16IsZero 0x10000#32 0#32 := by decide
theorem test_decode_reserved7 : decodeWord 0x7_00003F80_00003F80#68 = .reserved7 0x3F80#32 0x3F80#32 := by decide
theorem test_decode_imul : decodeWord 0x8_FFFFFFFF_00000002#68 = .imul 0xFFFFFFFF#32 2#32 := by decide
theorem test_decode_idiv : decodeWord 0x9_12345678_00000000#68 = .idiv 0x12345678#32 0#32 := by decide
theorem test_decode_imod : decodeWord 0xA_80000000_FFFFFFFF#68 = .imod 0x80000000#32 0xFFFFFFFF#32 := by decide
theorem test_decode_lzc : decodeWord 0xB_7FFFFFFF_00000000#68 = .lzc 0x7FFFFFFF#32 0#32 := by decide
theorem test_decode_rsqrt : decodeWord 0xC_000F4240_00000000#68 = .rsqrt 0xF4240#32 0#32 := by decide
-- The three words below are written from the request format (R70) and the codes of R71.
theorem test_decode_reservedD : decodeWord 0xD_00000001_00000002#68 = .reservedD 1#32 2#32 := by decide
theorem test_decode_reservedE : decodeWord 0xE_80000000_00000001#68 = .reservedE 0x80000000#32 1#32 := by decide
theorem test_decode_reservedF : decodeWord 0xF_FFFFFFFF_FFFFFFFF#68 = .reservedF 0xFFFFFFFF#32 0xFFFFFFFF#32 := by decide
theorem test_decode_refuses_wide_number : decodeNat (2 ^ 68) = .error .wordTooWide := rfl
theorem test_decode_table_word : decodeTableWord 72 0xC_00000004_00000000 = some (.rsqrt 4#32 0#32) := by decide
theorem test_encode_div : encodeWord (.bf16Div 0x40C0#32 0x4000#32) = 0x3_000040C0_00004000#68 := by decide
theorem test_listing_of_reserved : (Instr.reservedF 0#32 0#32).listingName = ".op 0xF" := by decide

/-! ### One step of each operation: R, FLAG and ILLEGAL of a request word placed in the reset state -/

/-- The response a placed request word leaves after one step. -/
def responseTo (w : Nat) : Option Response :=
  match step (State.reset.withFetchWord 68 w) with
  | .next t => if t.st = .done then some t.heldResponse else none
  | _ => none

theorem test_add_truncates : responseTo 0x0_00003F80_00003C40 = some ⟨0x3F81#64, false, false⟩ := by decide
theorem test_add_overflow_is_nan : responseTo 0x0_0000FF7F_0000FF7F = some ⟨0x7FC0#64, false, false⟩ := by decide
theorem test_sub_three_two : responseTo 0x1_00004040_00004000 = some ⟨0x3F80#64, false, false⟩ := by decide
theorem test_sub_flips_nan_sign : responseTo 0x1_00003F80_00007FC1 = some ⟨0xFFC1#64, false, false⟩ := by decide
theorem test_mul_subnormal_operand : responseTo 0x2_00000001_00004B00 = some ⟨0x0880#64, false, false⟩ := by decide
theorem test_mul_subnormal_result : responseTo 0x2_0000017F_00003CFF = some ⟨0x0007#64, false, false⟩ := by decide
theorem test_div_one_third : responseTo 0x3_00003F80_00004040 = some ⟨0x3EAA#64, false, false⟩ := by decide
theorem test_div_subnormal_dividend : responseTo 0x3_00000040_00003000 = some ⟨0x0E80#64, false, false⟩ := by decide
theorem test_isnan_smallest : responseTo 0x4_00007F81_00000000 = some ⟨1#64, true, false⟩ := by decide
theorem test_isnan_infinity : responseTo 0x4_00007F80_00000000 = some ⟨0#64, false, false⟩ := by decide
theorem test_isinf_negative : responseTo 0x5_0000FF80_00000000 = some ⟨1#64, true, false⟩ := by decide
theorem test_isinf_largest_finite : responseTo 0x5_00007F7F_00000000 = some ⟨0#64, false, false⟩ := by decide
theorem test_iszero_reads_low_half : responseTo 0x6_00010000_00000000 = some ⟨1#64, true, false⟩ := by decide
theorem test_iszero_subnormal : responseTo 0x6_00000001_00000000 = some ⟨0#64, false, false⟩ := by decide
theorem test_reserved7_is_illegal : responseTo 0x7_00003F80_00003F80 = some ⟨0#64, false, true⟩ := by decide
theorem test_imul_largest : responseTo 0x8_FFFFFFFF_FFFFFFFF = some ⟨0xFFFFFFFE00000001#64, false, false⟩ := by decide
theorem test_idiv_remainder_high : responseTo 0x9_FFFFFFFF_80000000 = some ⟨0x7FFFFFFF00000001#64, false, false⟩ := by decide
theorem test_idiv_by_zero : responseTo 0x9_12345678_00000000 = some ⟨0#64, false, false⟩ := by decide
theorem test_imod_small_dividend : responseTo 0xA_80000000_FFFFFFFF = some ⟨0x80000000#64, false, false⟩ := by decide
theorem test_lzc_zero : responseTo 0xB_00000000_00000000 = some ⟨32#64, false, false⟩ := by decide
theorem test_lzc_middle : responseTo 0xB_00010000_00000000 = some ⟨15#64, false, false⟩ := by decide
theorem test_rsqrt_three : responseTo 0xC_00000003_00000000 = some ⟨0x93CC#64, false, false⟩ := by decide
/-- By hand from R224: toward an entry above, `delta` wraps to `0xFFFFFFFF`, and so does the second subtraction. -/
theorem test_rsqrt_interpolation_wraps : interpolate 0#32 1#32 0x8000 = 0x80000001#32 := by decide
theorem test_rsqrt_below_65536 : responseTo 0xC_0000FFFF_00000000 = some ⟨0xFF#64, false, false⟩ := by decide
theorem test_reservedD_is_illegal : responseTo 0xD_00000000_00000000 = some ⟨0#64, false, true⟩ := by decide
theorem test_reservedE_is_illegal : responseTo 0xE_00000000_00000000 = some ⟨0#64, false, true⟩ := by decide
theorem test_reservedF_is_illegal : responseTo 0xF_00000000_00000000 = some ⟨0#64, false, true⟩ := by decide

/-! ### Single edges, after program P6 of the spec -/

/-- A request for BF16_ADD of 1.0 and 1.0, with the given other ports. -/
def offer (rst ready : Bool) : Inputs := ⟨rst, true, 0x0#4, 0x3F80#32, 0x3F80#32, ready⟩

/-- No request and no reset. -/
def quiet (ready : Bool) : Inputs := ⟨false, false, 0#4, 0#32, 0#32, ready⟩

/-- A state with the given `ST`, count of waiting edges, and coming inputs; the latched request is ISZERO of 2.0. -/
def stateAt (st : St) (left : Nat) (inputs : List Inputs) : State :=
  { State.reset with st := st, opQ := 0x6#4, aQ := 0x4000#32, edgesLeft := left, inputs := inputs }

/-- One field of the state after a step. -/
def after {α : Type} (f : State → α) (s : State) : Option α :=
  match step s with
  | .next t => some (f t)
  | _ => none

theorem test_edge_accepts :
    after (fun t => (t.st, t.opQ, t.aQ)) (stateAt .idle 0 [offer false false]) = some (.busy, 0x0#4, 0x3F80#32) := by
  decide
theorem test_edge_offer_not_accepted :
    after (fun t => (t.st, t.opQ, t.edgesLeft)) (stateAt .busy 2 [offer false false]) = some (.busy, 0x6#4, 1) := by
  decide
theorem test_edge_completes : after (fun t => (t.st, t.rQ, t.inputs)) (stateAt .busy 0 [offer false false]) = some (.done, 0#64, []) := by
  decide
theorem test_edge_holds_response : after (fun t => t.st) (stateAt .done 0 [offer false false]) = some .done := by decide
theorem test_edge_takes_response : after (fun t => t.st) (stateAt .done 0 [offer false true]) = some .idle := by decide
theorem test_edge_reset_wins : after (fun t => (t.st, t.opQ)) (stateAt .busy 0 [offer true true]) = some (.idle, 0x6#4) := by decide
theorem test_edge_idle_waits : after (fun t => t.st) (stateAt .idle 0 []) = some .idle := by decide
theorem test_edge_eleven_faults : after (fun t => t.st) (stateAt .eleven 0 [quiet false]) = none := by decide
theorem test_edge_reset_leaves_eleven : after (fun t => t.st) (stateAt .eleven 0 [offer true false]) = some .idle := by decide
theorem test_st_codes : [St.idle, .busy, .done, .eleven].map stCode = [0b00#2, 0b01#2, 0b10#2, 0b11#2] := by decide
theorem test_host_program_fault : hostProgramFault { State.reset with st := .done, illegalQ := true } = true := by decide

/-! ### Values that meet the hypotheses of the statements -/

theorem test_witness_StepRunsLatchedRequest :
    (stateAt .busy 0 [offer false true]).pins.rst = false ∧ (stateAt .busy 0 [offer false true]).st = .busy ∧
    (stateAt .busy 0 [offer false true]).edgesLeft = 0 ∧
    decodeWord (stateAt .busy 0 [offer false true]).request.toWord = .bf16IsZero 0x4000#32 0#32 := by decide

theorem test_witness_StepRunsPlacedWord :
    decodeTableWord 72 (2 ^ 68 - 1) = some (.reservedF 0xFFFFFFFF#32 0xFFFFFFFF#32) ∧
    decodeTableWord 68 0 = some (.bf16Add 0#32 0#32) := by decide

theorem test_witness_ResetEdgeReturnsToIdle :
    (stateAt .busy 1 [offer true true, offer false true]).pins.rst = true ∧
    (stateAt .idle 0 [offer false true]).pins.rst = false ∧ (stateAt .idle 0 [offer false true]).pins.reqValid = true := by
  decide

theorem test_witness_AcceptanceSamplesRequest :
    (let s := stateAt .idle 0 [offer false true]; s.pins.rst = false ∧ s.st = .idle ∧ s.pins.reqValid = true) ∧
    (let s := stateAt .idle 0 [quiet true]; s.pins.rst = false ∧ s.st = .idle ∧ s.pins.reqValid = false) ∧
    (let s := stateAt .busy 0 [offer false true];
      (step s = .next { s with st := .done, rQ := 0#64, inputs := [], edges := 1 }) ∧
      s.pins.rst = false ∧ ¬ (s.st = .idle ∧ s.pins.reqValid = true)) :=
  ⟨by decide, by decide, rfl, by decide⟩

theorem test_witness_ResponseTakenOrHeld :
    (let s := stateAt .done 0 [quiet true]; s.pins.rst = false ∧ s.st = .done ∧ s.pins.rspReady = true) ∧
    (let s := stateAt .done 0 [quiet false]; s.pins.rst = false ∧ s.st = .done ∧ s.pins.rspReady = false) := by decide

theorem test_witness_RequestCompletesAfterLatency :
    (stateAt .idle 0 [offer false true, quiet true]).st = .idle ∧
    (stateAt .idle 0 [offer false true, quiet true]).inputs = offer false true :: [quiet true] ∧
    (offer false true).rst = false ∧ (offer false true).reqValid = true ∧
    (∀ q ∈ [quiet true].take (Config.latency (offer false true).reqOp), q.rst = false) ∧
    (1 ≤ 1 ∧ 1 ≤ Config.latency (offer false true).reqOp) ∧
    (1 ≤ Config.latency (offer false true).reqOp ∧
      Config.latency (offer false true).reqOp ≤ Config.latency (offer false true).reqOp) := by
  refine ⟨rfl, rfl, rfl, rfl, ?_, ⟨Nat.le_refl 1, ?_⟩, ?_, Nat.le_refl _⟩
  · intro q hq
    have h := List.mem_of_mem_take hq
    simp only [List.mem_singleton] at h
    subst h
    rfl
  all_goals
    unfold Config.latency
    omega

theorem test_witness_FastestCycleTakesResponse :
    ∃ rest : List Inputs,
      (stateAt .idle 0 (offer false true :: rest)).st = .idle ∧
      (stateAt .idle 0 (offer false true :: rest)).inputs = offer false true :: rest ∧
      (offer false true).rst = false ∧ (offer false true).reqValid = true ∧
      (∀ x ∈ rest.take (Config.latency (offer false true).reqOp), x.rst = false) ∧
      rest[Config.latency (offer false true).reqOp]? = some (quiet true) ∧
      (quiet true).rst = false ∧ (quiet true).rspReady = true := by
  refine ⟨List.replicate (Config.latency (offer false true).reqOp + 1) (quiet true), rfl, rfl, rfl, rfl, ?_, ?_, rfl, rfl⟩
  · intro x hx
    have h := List.eq_of_mem_replicate (List.mem_of_mem_take hx)
    subst h
    rfl
  · simp

theorem test_witness_TransitionsFollowCycle :
    (let s := stateAt .idle 0 [quiet true]; s.pins.rst = false ∧ after (fun t => t.st) s = some .idle) ∧
    (let s := stateAt .busy 0 [quiet true]; s.pins.rst = false ∧ s.st ≠ .idle ∧
      after (fun t => decide (t.heldResponse ≠ s.heldResponse)) { s with aQ := 0x8000#32 } = some true) ∧
    (let s := stateAt .done 0 [quiet true]; s.pins.rst = false ∧ after (fun t => t.st) s = some .idle) := by decide

theorem test_witness_TransitionsFollowCycle_taken :
    (stateAt .done 0 [quiet true]).takenResponse ≠ none := by decide

theorem test_witness_RequestPortsIgnoredUnlessIdle :
    (stateAt .busy 0 []).st ≠ .idle ∧ (offer false true).rst = (quiet true).rst ∧
    (offer false true).rspReady = (quiet true).rspReady ∧ offer false true ≠ quiet true := by decide

theorem test_witness_ResponseStableUntilTaken :
    (let s := stateAt .done 0 [quiet false, offer false false, quiet true];
      s.st = .done ∧ (∀ p ∈ s.inputs.take 2, p.rst = false ∧ p.rspReady = false)) ∧
    (let s := stateAt .done 0 [quiet true]; s.st = .done ∧ (∀ p ∈ s.inputs.take 0, p.rst = false ∧ p.rspReady = false)) := by
  decide

/-- A legal state with an operation in flight, which completes at the next step. -/
theorem test_witness_EveryStepKeepsLegal :
    Legal (stateAt .busy 0 []) ∧
    step (stateAt .busy 0 []) = .next { stateAt .busy 0 [] with st := .done, rQ := 0#64, edges := 1 } :=
  ⟨⟨by decide, by decide, by decide, by decide⟩, rfl⟩

/-- A legal state with a response present. -/
theorem test_witness_Legal_done : Legal (stateAt .done 0 []) := ⟨by decide, by decide, by decide, by decide⟩

theorem test_witness_FaultOnlyAtUnreachableSt :
    Legal (stateAt .busy 3 []) ∧ (stateAt .eleven 0 []).pins.rst = false ∧ (stateAt .eleven 0 []).st = .eleven :=
  ⟨⟨by decide, by decide, by decide, by decide⟩, by decide, by decide⟩

theorem test_witness_TableNeverWritten :
    step (stateAt .done 0 [quiet true]) = .next { stateAt .idle 0 [] with edges := 1 } := rfl

theorem test_witness_OnlyRsqrtReadsTable : (⟨0xB#4, 7#32, 0#32⟩ : Request).op ≠ 0xC#4 := by decide

theorem test_witness_IgnoredBitsChangeNothing :
    (0x3F80#32 : Word).extractLsb' 0 16 = (0xFFFF3F80#32 : Word).extractLsb' 0 16 ∧ (0x3F80#32 : Word) ≠ 0xFFFF3F80#32 := by decide

theorem test_witness_ReservedCodesRespondIllegal :
    (quiet true).rst = false ∧ (quiet true).rspReady = true ∧ (offer false false).rst = false ∧
    (offer false false).reqValid = true := by decide

theorem test_witness_BinarySearchCountAgrees : (1#32 : Word) ≠ 0#32 ∧ (0xFFFFFFFF#32 : Word) ≠ 0#32 := by decide

theorem test_witness_AddPropagatesNan :
    (isNan (bf16Operand 0x7F81#32) = true ∧ isNan (bf16Operand 0xFFFF#32) = true) ∧
    (isNan (bf16Operand 0x7F80#32) = false ∧ isNan (bf16Operand 0xFFC2#32) = true) := by decide

theorem test_witness_AddInfinities :
    (let x := bf16Operand 0x7F80#32; let y := bf16Operand 0xFF80#32;
      isNan x = false ∧ isNan y = false ∧ isInf x = true ∧ isInf y = true ∧ sign x ≠ sign y) ∧
    (let x := bf16Operand 0x0000#32; let y := bf16Operand 0xFF80#32; isNan x = false ∧ isNan y = false ∧ isInf y = true) := by
  decide

theorem test_witness_AddZeroGivesOther :
    (let x := bf16Operand 0x8000#32; let y := bf16Operand 0x0000#32; isNan x = false ∧ isNan y = false ∧ isZero x = true) ∧
    (let x := bf16Operand 0x0001#32; let y := bf16Operand 0x8000#32;
      isNan x = false ∧ isNan y = false ∧ isZero x = false ∧ isZero y = true) := by decide

theorem test_witness_AddFarApartReturnsLarger :
    (let x := bf16Operand 0x4400#32; let y := bf16Operand 0x3F80#32;
      finiteNonzero x = true ∧ finiteNonzero y = true ∧ exponent y + 8 < exponent x) ∧
    (let x := bf16Operand 0x0001#32; let y := bf16Operand 0x7F7F#32;
      finiteNonzero x = true ∧ finiteNonzero y = true ∧ exponent x + 8 < exponent y) := by decide

theorem test_witness_AddSameSignSum :
    (let x := bf16Operand 0x4380#32; let y := bf16Operand 0x3F80#32;
      finiteNonzero x = true ∧ finiteNonzero y = true ∧ exponent x ≤ exponent y + 8 ∧ exponent y ≤ exponent x + 8 ∧
      sign x = sign y) ∧
    (let x := bf16Operand 0x007F#32; let y := bf16Operand 0x0001#32;
      finiteNonzero x = true ∧ finiteNonzero y = true ∧ exponent x ≤ exponent y + 8 ∧ exponent y ≤ exponent x + 8 ∧
      sign x = sign y) := by decide

theorem test_witness_AddOppositeSignDifference :
    (let x := bf16Operand 0x3F81#32; let y := bf16Operand 0xBF80#32;
      finiteNonzero x = true ∧ finiteNonzero y = true ∧ exponent x ≤ exponent y + 8 ∧ exponent y ≤ exponent x + 8 ∧
      sign x ≠ sign y) ∧
    (let x := bf16Operand 0x3F80#32; let y := bf16Operand 0xC380#32;
      finiteNonzero x = true ∧ finiteNonzero y = true ∧ exponent x ≤ exponent y + 8 ∧ exponent y ≤ exponent x + 8 ∧
      sign x ≠ sign y) := by decide

theorem test_witness_AddCommutes :
    (let x := bf16Operand 0x7FC1#32; let y := bf16Operand 0x7FC1#32;
      ¬ (isNan x = true ∧ isNan y = true ∧ x ≠ y) ∧ ¬ (isZero x = true ∧ isZero y = true ∧ x ≠ y)) ∧
    (let x := bf16Operand 0x8000#32; let y := bf16Operand 0x3F80#32;
      ¬ (isNan x = true ∧ isNan y = true ∧ x ≠ y) ∧ ¬ (isZero x = true ∧ isZero y = true ∧ x ≠ y)) := by decide

/-- For AddCreatesNoInfinity, DivNeverSubnormal and ProductAndQuotientSigns. -/
theorem test_witness_canonNan :
    isNan State.reset.canonNan = true ∧ isNan { State.reset with canonNan := 0xFF81#16 }.canonNan = true := by decide

theorem test_witness_SubAddsFlippedSign :
    (isNan (bf16Operand 0x3F80#32) = false ∧ isNan (bf16Operand 0x7FC1#32) = true) ∧
    (bf16Operand 0xFFFF0000#32 = 0x0000#16 ∧ bf16Operand 0#32 = 0x0000#16) := by decide

theorem test_witness_SubSelfIsZeroAddSelfDoubles :
    (bf16Operand 0x10001#32 = bf16Operand 0x0001#32 ∧ finiteNonzero (bf16Operand 0x0001#32) = true) ∧
    (bf16Operand 0x7EFF#32 = bf16Operand 0x7EFF#32 ∧ isNormal (bf16Operand 0x7EFF#32) = true ∧
      exponent (bf16Operand 0x7EFF#32) ≤ 253) ∧
    (isNormal (bf16Operand 0x7F7F#32) = true ∧ ¬ exponent (bf16Operand 0x7F7F#32) ≤ 253) := by decide

/-- For MulSpecialValues and DivSpecialValues: either operand may be the one that is not finite and nonzero. -/
theorem test_witness_special_operands :
    finiteNonzero (bf16Operand 0x7F80#32) = false ∧ finiteNonzero (bf16Operand 0x8000#32) = false ∧
    finiteNonzero (bf16Operand 0x7F81#32) = false ∧ finiteNonzero (bf16Operand 0x3F80#32) = true := by decide

/-- For MulFiniteProduct and DivFiniteQuotient, and the second hypothesis of DivBySelfIsOne. -/
theorem test_witness_finite_operands :
    finiteNonzero (bf16Operand 0x0001#32) = true ∧ finiteNonzero (bf16Operand 0xFF7F#32) = true := by decide

theorem test_witness_MulByOneIsIdentity :
    isNormal (bf16Operand 0x0080#32) = true ∧ bf16Operand 0x3F80#32 = 0x3F80#16 ∧ isNormal (bf16Operand 0xFF7F#32) = true := by decide

theorem test_witness_MulCommutes :
    (let x := bf16Operand 0x7FC1#32; let y := bf16Operand 0x7F80#32; ¬ (isNan x = true ∧ isNan y = true ∧ x ≠ y)) := by decide

theorem test_witness_DivQuotientSaturates :
    (1 ≤ 1 ∧ 1 ≤ 0xFF ∧ 1 ≤ 0xFF ∧ (0xFF : Nat) ≤ 0xFF ∧ (1 : Nat) < 2 * 0xFF) ∧
    (1 ≤ 254 ∧ 254 ≤ 0xFF ∧ 1 ≤ 127 ∧ 127 ≤ 0xFF ∧ ¬ (254 : Nat) < 2 * 127) := by decide

theorem test_witness_DivBySelfIsOne :
    finiteNonzero (bf16Operand 0x807F#32) = true ∧ bf16Operand 0xFFFF807F#32 = bf16Operand 0x807F#32 := by decide

/-- For RsqrtTwoNewtonPasses and RsqrtPassesNeverWrap (whose inner hypotheses are those of RsqrtInitialGuess). -/
theorem test_witness_RsqrtTwoNewtonPasses : 2 ≤ (2#32 : Word).toNat ∧ 2 ≤ (0xFFFFFFFF#32 : Word).toNat := by decide

theorem test_witness_RsqrtInitialGuess :
    (2 ^ (0 : Fin 32).val ≤ (1#32 : Word).toNat ∧ (1#32 : Word).toNat < 2 ^ ((0 : Fin 32).val + 1) ∧
      (1#32 : Word).toNat = 2 ^ (0 : Fin 32).val) ∧
    (2 ^ (31 : Fin 32).val ≤ (0xC0000000#32 : Word).toNat ∧ (0xC0000000#32 : Word).toNat < 2 ^ ((31 : Fin 32).val + 1) ∧
      (0xC0000000#32 : Word).toNat ≠ 2 ^ (31 : Fin 32).val ∧
      (nextEntry rsqrtTableDefault 31).toNat ≤ rsqrtTableDefault[(31 : Fin 32)].toNat) ∧
    (2 ^ (1 : Fin 32).val ≤ (3#32 : Word).toNat ∧ (3#32 : Word).toNat < 2 ^ ((1 : Fin 32).val + 1) ∧
      (3#32 : Word).toNat ≠ 2 ^ (1 : Fin 32).val ∧
      (nextEntry rsqrtTableDefault 1).toNat ≤ rsqrtTableDefault[(1 : Fin 32)].toNat) ∧
    (nextEntry (rsqrtTableDefault.set 2 0xFFFFFFFF#32) 1).toNat > (rsqrtTableDefault.set 2 0xFFFFFFFF#32)[(1 : Fin 32)].toNat := by
  decide

/-- A table that differs from the reset state's at an entry RSQRT of 3 does not read. -/
theorem test_witness_RsqrtReadsTwoEntries :
    (∀ e : Fin 32, e.val = Nat.log2 (3#32 : Word).toNat → (rsqrtTableDefault.set 5 0#32)[e] = State.reset.rom[e]) ∧
    (∀ e : Fin 32, e.val = Nat.log2 (3#32 : Word).toNat + 1 → (3#32 : Word).toNat ≠ 2 ^ Nat.log2 (3#32 : Word).toNat →
      (rsqrtTableDefault.set 5 0#32)[e] = State.reset.rom[e]) ∧
    rsqrtTableDefault.set 5 0#32 ≠ State.reset.rom := by decide

theorem test_witness_RsqrtPowersOfFourExact :
    1 ≤ 1 ∧ 1 ≤ 15 ∧ (15 : Nat) ≤ 15 ∧ State.reset.rom = rsqrtTableDefault := ⟨by decide, by decide, by decide, rfl⟩

end Sys2Proof.Tests
end

section
/-! PROOFS. The transaction layer: the step equation of each kind of edge outside BUSY, what an edge without reset can do, and the
statements O8, O9, O10, O13 (10_state.md R30 to R35) and O23 (R25) that follow. -/

namespace Sys2Proof.Machine

variable {s t : State}

/-! ### The step, edge by edge -/

/-- R32: an accepting edge. -/
theorem step_idle_accept (hr : s.pins.rst = false) (hs : s.st = .idle) (hv : s.pins.reqValid = true) :
    step s = .next (s.endEdge.acceptRequest s.pins) := by
  rw [step, edgeKind_idle_accept hr hs hv]

/-- R32: an edge of `IDLE` without a request. -/
theorem step_idle_hold (hr : s.pins.rst = false) (hs : s.st = .idle) (hv : s.pins.reqValid = false) :
    step s = .next s.endEdge := by
  rw [step, edgeKind_idle_hold hr hs hv]

/-- R34: the response is taken. -/
theorem step_done_take (hr : s.pins.rst = false) (hs : s.st = .done) (hv : s.pins.rspReady = true) :
    step s = .next s.endEdge.takeResponse := by
  rw [step, edgeKind_done_take hr hs hv]

/-- R34: the response is held. -/
theorem step_done_hold (hr : s.pins.rst = false) (hs : s.st = .done) (hv : s.pins.rspReady = false) :
    step s = .next s.endEdge := by
  rw [step, edgeKind_done_hold hr hs hv]

/-! ### The ports -/

theorem reqReady_iff : s.reqReady = true ↔ s.st = .idle := decide_eq_true_iff

theorem rspValid_iff : s.rspValid = true ↔ s.st = .done := decide_eq_true_iff

@[simp] theorem outputs_reqReady : s.outputs.reqReady = s.reqReady := rfl

@[simp] theorem outputs_rspValid : s.outputs.rspValid = s.rspValid := rfl

/-- R31: the response ports show the response registers while a response is present. -/
theorem outputs_response (h : s.rspValid = true) :
    s.outputs.rspR = s.rQ ∧ s.outputs.rspFlag = s.flagQ ∧ s.outputs.rspIllegal = s.illegalQ := by
  simp [State.outputs, h]

/-- R34, R38: what the host takes is the response held in the registers. -/
theorem takenResponse_done_ready (hr : s.pins.rst = false) (hs : s.st = .done) (hv : s.pins.rspReady = true) :
    s.takenResponse = some s.heldResponse := by
  have hvalid := rspValid_iff.2 hs
  obtain ⟨h1, h2, h3⟩ := outputs_response hvalid
  simp [State.takenResponse, State.heldResponse, hvalid, hr, hv, h1, h2, h3]

theorem takenResponse_not_ready (hv : s.pins.rspReady = false) : s.takenResponse = none := by
  simp [State.takenResponse, hv]

/-- A response is taken only in `DONE`, and only where the host is ready for it. -/
theorem done_ready_of_takenResponse (h : s.takenResponse ≠ none) : s.st = .done ∧ s.pins.rspReady = true := by
  unfold State.takenResponse at h
  split at h
  next hc =>
    simp only [Bool.and_eq_true, rspValid_iff] at hc
    obtain ⟨⟨hs, -⟩, hv⟩ := hc
    exact ⟨hs, hv⟩
  next => exact absurd rfl h

/-! ### What an edge without reset can do -/

/-- The completing edge writes a response and nothing else (R33). -/
theorem eq_complete_of_exec {i : Instr} (h : exec i s = .next t) :
    ∃ (r : DWord) (flag illegal : Bool), t = s.complete r flag illegal := by
  obtain ⟨r, flag, illegal, he⟩ := exec_next i s
  rw [he] at h
  cases h
  exact ⟨r, flag, illegal, rfl⟩

/-- `step_next_cases` without its reset edge, the completing edge as the update it is. -/
theorem step_next_cases_no_reset (hr : s.pins.rst = false) (h : step s = .next t) :
    (s.st = .idle ∧ s.pins.reqValid = false ∧ t = s.endEdge) ∨
    (s.st = .idle ∧ s.pins.reqValid = true ∧ t = s.endEdge.acceptRequest s.pins) ∨
    (s.st = .busy ∧ t = s.endEdge.waitEdge) ∨
    (s.st = .busy ∧ ∃ (r : DWord) (flag illegal : Bool), t = s.endEdge.complete r flag illegal) ∨
    (s.st = .done ∧ s.pins.rspReady = false ∧ t = s.endEdge) ∨
    (s.st = .done ∧ s.pins.rspReady = true ∧ t = s.endEdge.takeResponse) := by
  rcases step_next_cases h with ⟨hrst, -⟩ | ⟨-, hold | accept | ⟨hs, -, ht⟩ | ⟨hs, -, he⟩ | held | taken⟩
  · simp [hr] at hrst
  · exact .inl hold
  · exact .inr (.inl accept)
  · exact .inr (.inr (.inl ⟨hs, ht⟩))
  · exact .inr (.inr (.inr (.inl ⟨hs, eq_complete_of_exec he⟩)))
  · exact .inr (.inr (.inr (.inr (.inl held))))
  · exact .inr (.inr (.inr (.inr (.inr taken))))

/-- R35: `ST` stays, or moves one place along the cycle. -/
theorem step_st_cycle (hr : s.pins.rst = false) (h : step s = .next t) :
    (s.st = .idle ∧ (t.st = .idle ∨ t.st = .busy)) ∨ (s.st = .busy ∧ (t.st = .busy ∨ t.st = .done)) ∨
      (s.st = .done ∧ (t.st = .done ∨ t.st = .idle)) := by
  rcases step_next_cases_no_reset hr h with
    ⟨hs, -, rfl⟩ | ⟨hs, -, rfl⟩ | ⟨hs, rfl⟩ | ⟨hs, r, flag, illegal, rfl⟩ | ⟨hs, -, rfl⟩ | ⟨hs, -, rfl⟩
  all_goals simp [hs]

/-- R32: without reset only an accepting edge writes the latched request. -/
theorem step_request_of_not_accept (hr : s.pins.rst = false) (h : step s = .next t)
    (hna : ¬ (s.st = .idle ∧ s.pins.reqValid = true)) : t.request = s.request := by
  rcases step_next_cases_no_reset hr h with
    ⟨-, -, rfl⟩ | ⟨hs, hv, -⟩ | ⟨-, rfl⟩ | ⟨-, r, flag, illegal, rfl⟩ | ⟨-, -, rfl⟩ | ⟨-, -, rfl⟩
  case inr.inl => exact absurd ⟨hs, hv⟩ hna
  all_goals rfl

/-- R35: without reset only the completing edge writes the response registers. -/
theorem step_heldResponse_ne (hr : s.pins.rst = false) (h : step s = .next t)
    (hne : t.heldResponse ≠ s.heldResponse) : s.st = .busy ∧ t.st = .done := by
  rcases step_next_cases_no_reset hr h with
    ⟨-, -, rfl⟩ | ⟨-, -, rfl⟩ | ⟨-, rfl⟩ | ⟨hs, r, flag, illegal, rfl⟩ | ⟨-, -, rfl⟩ | ⟨-, -, rfl⟩
  case inr.inr.inr.inl => exact ⟨hs, rfl⟩
  all_goals exact absurd rfl hne

/-! ### The flag -/

/-- What R25 gives for the flag of an instruction: the predicate of a classifier, 0 for everything else. -/
def flagOfInstr : Instr → Bool
  | .bf16IsNan a _ => isNan (bf16Operand a)
  | .bf16IsInf a _ => isInf (bf16Operand a)
  | .bf16IsZero a _ => isZero (bf16Operand a)
  | _ => false

theorem exec_flagQ (i : Instr) (s : State) : ∃ t, exec i s = .next t ∧ t.flagQ = flagOfInstr i := by
  cases i <;> exact ⟨_, rfl, rfl⟩

/-- No operation reads `FLAG_Q`: it is only written. -/
theorem exec_flagQ_irrelevant (i : Instr) (s : State) (f : Bool) : exec i { s with flagQ := f } = exec i s := by
  cases i <;> rfl

/-- The codes of R71 that decode to a classifier are `0x4`, `0x5` and `0x6`. -/
theorem flagOfInstr_decode (r : Request) :
    flagOfInstr (decode r) =
      if r.op = 0x4#4 then isNan (bf16Operand r.a) else if r.op = 0x5#4 then isInf (bf16Operand r.a)
        else if r.op = 0x6#4 then isZero (bf16Operand r.a) else false := by
  unfold decode
  split <;> simp_all [flagOfInstr]

end Sys2Proof.Machine

/-! ### The statements -/

section
open Sys2Proof Sys2Proof.Machine

/-- Settles O13: each clause is read off what an edge without reset can do. -/
theorem transitionsFollowCycle : Obligations.TransitionsFollowCycle := by
  intro s t hr h
  refine ⟨step_st_cycle hr h, fun hni => ⟨?_, ?_⟩, step_heldResponse_ne hr h, fun htaken => ?_⟩
  · simpa [State.reqReady] using hni
  · exact step_request_of_not_accept hr h fun hacc => hni hacc.1
  · obtain ⟨hs, hv⟩ := done_ready_of_takenResponse htaken
    rw [step_done_take hr hs hv] at h
    cases h
    exact ⟨hs, rfl, rfl⟩

/-- Settles O8: the step equations of an `IDLE` edge, and the frame of every other edge. -/
theorem acceptanceSamplesRequest : Obligations.AcceptanceSamplesRequest :=
  ⟨fun _ hr hs hv => ⟨_, step_idle_accept hr hs hv⟩, fun _ hr hs hv => step_idle_hold hr hs hv,
    fun _ _ hr h hna => step_request_of_not_accept hr h hna⟩

/-- Settles O23: the flag of each instruction, then which codes decode to a classifier. -/
theorem flagIsClassifierPredicate : Obligations.FlagIsClassifierPredicate := by
  intro r s
  obtain ⟨t, ht, hflag⟩ := exec_flagQ (decode r) s
  exact ⟨⟨t, ht, hflag.trans (flagOfInstr_decode r)⟩, exec_flagQ_irrelevant (decode r) s⟩

/-- Settles O9: the step equations of a `DONE` edge. -/
theorem responseTakenOrHeld : Obligations.ResponseTakenOrHeld :=
  ⟨fun _ hr hs hv => ⟨takenResponse_done_ready hr hs hv, _, step_done_take hr hs hv, rfl, by simp [State.rspValid]⟩,
    fun _ hr hs hv => ⟨takenResponse_not_ready hv, step_done_hold hr hs hv⟩⟩

/-- Settles O10, from the output equations. -/
theorem outputsFollowState : Obligations.OutputsFollowState :=
  fun _ => ⟨reqReady_iff, rspValid_iff, outputs_response⟩

end
end

section
/-! PROOFS. The operation table and the operation function: which code an instruction was decoded from, the completing edge of each
instruction against `F`, and the statements O20, O24 and O25 (30_encoding.md R74 to R76) that follow. -/

namespace Sys2Proof

/-! ### The table of R71, read from the instruction -/

/-- R71: the instruction of a request asks for that request again, both operands whole: each of the sixteen codes has its own
arm. -/
theorem encode_decode (r : Request) : encode (decode r) = r := by
  obtain ⟨⟨code⟩, a, b⟩ := r
  fin_cases code <;> rfl

theorem opcode_decode (r : Request) : (decode r).opcode = r.op := congrArg Request.op (encode_decode r)

/-- R75: the reserved instructions are those of the four reserved codes. -/
theorem isReserved_iff_opcode (i : Instr) :
    i.isReserved = true ↔ (i.opcode = 0x7#4 ∨ i.opcode = 0xD#4 ∨ i.opcode = 0xE#4 ∨ i.opcode = 0xF#4) := by
  cases i <;> simp [Instr.isReserved, Instr.opcode]

end Sys2Proof

namespace Sys2Proof.Machine

/-! ### The completing edge against `F` -/

theorem lzc_le (x : Word) : lzc x ≤ 32 := by
  unfold lzc
  split <;> omega

/-- R73: the count of LZC fits its 32-bit result, so widening the word is widening the count. -/
theorem wordResult_lzc (x : Word) : wordResult (BitVec.ofNat 32 (lzc x)) = BitVec.ofNat 64 (lzc x) := by
  have hle := lzc_le x
  apply BitVec.eq_of_toNat_eq
  simp only [wordResult_eq, BitVec.toNat_setWidth, BitVec.toNat_ofNat]
  omega

/-- R33, R74: each instruction completes with the response of `F` for its own request. LZC alone needs arithmetic: `F` states its
count on 64 bits, the unit forms it on 32. -/
theorem exec_eq_complete_operationFunction (i : Instr) (s : State) :
    exec i s = .next (s.complete (operationFunction s.rom s.canonNan (encode i)).r
      (operationFunction s.rom s.canonNan (encode i)).flag (operationFunction s.rom s.canonNan (encode i)).illegal) := by
  cases i
  case lzc a b => exact congrArg (fun r => Host.Outcome.next (s.complete r false false)) (wordResult_lzc a)
  all_goals rfl

/-! ### Reserved codes -/

/-- R75: an instruction sets `ILLEGAL` exactly where it is reserved. -/
theorem exec_illegalQ (i : Instr) (s : State) : ∃ t, exec i s = .next t ∧ t.illegalQ = i.isReserved := by
  cases i <;> exact ⟨_, rfl, rfl⟩

/-- R76, R241: a host program stops exactly where the response present is the illegal one. -/
theorem hostProgramFault_iff {s : State} : hostProgramFault s = true ↔ s.st = .done ∧ s.illegalQ = true := by
  rw [hostProgramFault, Bool.and_eq_true, rspValid_iff]

/-! ### Runs -/

theorem runEdges_succ_of_step {s t : State} (n : Nat) (h : step s = .next t) : runEdges (n + 1) s = runEdges n t := by
  rw [runEdges, h]

/-- R32, R34: from any response present, one edge takes it and the next accepts a request. -/
theorem runEdges_take_accept {s : State} {p q : Inputs} {rest : List Inputs} (hs : s.st = .done) (hin : s.inputs = p :: q :: rest)
    (hp : p.rst = false) (htake : p.rspReady = true) (hq : q.rst = false) (hvalid : q.reqValid = true) :
    runEdges 2 s = .next (s.endEdge.takeResponse.endEdge.acceptRequest q) := by
  have hpins : s.pins = p := pins_of_cons hin
  have hpins' : s.endEdge.takeResponse.pins = q := pins_of_cons (ps := rest) (by simp [hin])
  have htaken : step s = .next s.endEdge.takeResponse :=
    step_done_take (by rw [hpins, hp]) hs (by rw [hpins, htake])
  have haccepted : step s.endEdge.takeResponse = .next (s.endEdge.takeResponse.endEdge.acceptRequest q) := by
    rw [step_idle_accept (by rw [hpins', hq]) rfl (by rw [hpins', hvalid]), hpins']
  rw [runEdges_succ_of_step 1 htaken, runEdges_succ_of_step 0 haccepted, runEdges]

end Sys2Proof.Machine

/-! ### The statements -/

section
open Sys2Proof Sys2Proof.Machine

/-- Settles O20: each instruction completes with `F` of its own request, which is the request it was decoded from. -/
theorem execIsOperationFunction : Obligations.ExecIsOperationFunction := by
  intro r s
  have h := exec_eq_complete_operationFunction (decode r) s
  rw [encode_decode] at h
  exact h

/-- Settles O24: `ILLEGAL` marks the reserved instructions, and these come from the reserved codes. -/
theorem illegalExactlyForReserved : Obligations.IllegalExactlyForReserved := by
  intro r s
  obtain ⟨t, ht, hillegal⟩ := exec_illegalQ (decode r) s
  refine ⟨t, ht, ?_⟩
  rw [hillegal, isReserved_iff_opcode, opcode_decode]

/-- Settles O25: the illegal response, then the two edges that take it and accept the next request. -/
theorem reservedCodesRespondIllegal : Obligations.ReservedCodesRespondIllegal := by
  intro a b s
  refine ⟨s.completeIllegal, rfl, rfl, rfl, rfl, rfl, hostProgramFault_iff.2 ⟨rfl, rfl⟩, ?_⟩
  intro p q rest hp htake hq hvalid
  exact ⟨_, runEdges_take_accept rfl rfl hp htake hq hvalid, rfl, rfl⟩

end
end

section
/-! PROOFS. The integer operations: the completing edge of each, its result as a number, and the statements O29 to O33
(40_integer.md R101 to R107) that follow. The loops themselves are settled in Laws/Integer.lean. -/

namespace Sys2Proof.Machine

/-! ### The completing edge of each operation -/

theorem exec_imul (a b : Word) (s : State) :
    exec (.imul a b) s = .next { s with rQ := imul a b, flagQ := false, illegalQ := false, st := .done } := rfl

theorem exec_idiv (a b : Word) (s : State) :
    exec (.idiv a b) s = .next { s with
      rQ := pairResult (udivmod a b).2 (udivmod a b).1, flagQ := false, illegalQ := false, st := .done } := rfl

theorem exec_imod (a b : Word) (s : State) :
    exec (.imod a b) s = .next { s with
      rQ := wordResult (udivmod a b).2, flagQ := false, illegalQ := false, st := .done } := rfl

theorem exec_lzc (a b : Word) (s : State) :
    exec (.lzc a b) s = .next { s with
      rQ := wordResult (BitVec.ofNat 32 (lzc a)), flagQ := false, illegalQ := false, st := .done } := rfl

/-! ### The results -/

/-- R100: the largest product is below `2^64`. -/
theorem toNat_mul_toNat_lt (a b : Word) : a.toNat * b.toNat < 2 ^ 64 :=
  calc a.toNat * b.toNat < 2 ^ 32 * 2 ^ 32 := Nat.mul_lt_mul'' a.isLt b.isLt
    _ = 2 ^ 64 := by norm_num

theorem imul_eq_ofNat (a b : Word) : imul a b = BitVec.ofNat 64 (a.toNat * b.toNat) := by
  rw [← imul_toNat, BitVec.ofNat_toNat, BitVec.setWidth_eq]

/-- R103: the remainder and the quotient, each with its weight in the result. -/
theorem pairResult_udivmod (a b : Word) :
    pairResult (udivmod a b).2 (udivmod a b).1 =
      if b = 0#32 then 0#64 else BitVec.ofNat 64 (a.toNat % b.toNat * 2 ^ 32 + a.toNat / b.toNat) := by
  split
  case isTrue hb => rw [hb, udivmod_zero]; rfl
  case isFalse hb =>
    obtain ⟨hquot, hrem⟩ := udivmod_toNat a b hb
    rw [← hquot, ← hrem, ← pairResult_toNat, BitVec.ofNat_toNat, BitVec.setWidth_eq]

/-- R104: the remainder alone. -/
theorem wordResult_udivmod (a b : Word) :
    wordResult (udivmod a b).2 = if b = 0#32 then 0#64 else BitVec.ofNat 64 (a.toNat % b.toNat) := by
  split
  case isTrue hb => rw [hb, udivmod_zero]; rfl
  case isFalse hb =>
    obtain ⟨-, hrem⟩ := udivmod_toNat a b hb
    rw [← hrem, BitVec.ofNat_toNat, wordResult_eq]

/-- R107: the count by the position of the top set bit. -/
theorem wordResult_lzc_eq_ite (a : Word) :
    wordResult (BitVec.ofNat 32 (lzc a)) = if a = 0#32 then 32#64 else BitVec.ofNat 64 (31 - Nat.log2 a.toNat) := by
  rw [wordResult_lzc]
  split
  case isTrue ha => rw [ha, lzc_zero]
  case isFalse ha => rw [lzc_eq a ha]

end Sys2Proof.Machine

/-! ### The statements -/

section
open Sys2Proof Sys2Proof.Machine

/-- Settles O29: the shift-add loop gives the product, which fits 64 bits. -/
theorem imulExactProduct : Obligations.ImulExactProduct :=
  fun a b s => ⟨rfl, toNat_mul_toNat_lt a b, by rw [exec_imul, imul_eq_ofNat]⟩

/-- Settles O30, from the restoring division's two results. -/
theorem idivQuotientAndRemainder : Obligations.IdivQuotientAndRemainder :=
  fun a b s => ⟨rfl, by rw [exec_idiv, pairResult_udivmod]⟩

/-- Settles O31, from the restoring division's remainder. -/
theorem imodRemainder : Obligations.ImodRemainder :=
  fun a b s => ⟨rfl, by rw [exec_imod, wordResult_udivmod]⟩

/-- Settles O32: the zero divisor's branch of both results. -/
theorem divisionByZeroGivesZero : Obligations.DivisionByZeroGivesZero :=
  fun x s => ⟨by rw [exec_idiv, pairResult_udivmod, if_pos rfl], by rw [exec_imod, wordResult_udivmod, if_pos rfl]⟩

/-- Settles O33, from the position of the top set bit. -/
theorem lzcCountsLeadingZeros : Obligations.LzcCountsLeadingZeros :=
  fun a b s => ⟨rfl, by rw [exec_lzc, wordResult_lzc_eq_ite]⟩

end
end

section
/-! PROOFS. The bf16 classification: the five categories on the exponent and mantissa fields, the three classifiers on the low 15
bits, and the statements O27 and O28 (41_bf16_codec.md R135 to R142) that follow. -/

namespace Sys2Proof.Machine

/-! ### The category table, on the field values -/

theorem isZero_iff (v : Bf16) : isZero v = true ↔ exponent v = 0 ∧ mantissa v = 0 := by simp [isZero]

theorem isSubnormal_iff (v : Bf16) : isSubnormal v = true ↔ exponent v = 0 ∧ mantissa v ≠ 0 := by simp [isSubnormal]

theorem isInf_iff (v : Bf16) : isInf v = true ↔ exponent v = 255 ∧ mantissa v = 0 := by simp [isInf]

theorem isNan_iff (v : Bf16) : isNan v = true ↔ exponent v = 255 ∧ mantissa v ≠ 0 := by simp [isNan]

/-- R139: the field has 8 bits, so 1 to 254 is everything but its two ends. -/
theorem isNormal_iff (v : Bf16) : isNormal v = true ↔ exponent v ≠ 0 ∧ exponent v ≠ 255 := by
  have hlt := exponent_lt v
  simp only [isNormal, Bool.and_eq_true, decide_eq_true_eq]
  omega

theorem exponent_eq_toNat_iff (v : Bf16) (e : BitVec 8) : exponent v = e.toNat ↔ v.extractLsb' 7 8 = e := BitVec.toNat_inj

theorem mantissa_eq_toNat_iff (v : Bf16) (m : BitVec 7) : mantissa v = m.toNat ↔ v.extractLsb' 0 7 = m := BitVec.toNat_inj

/-- R139: the two ends of the exponent range each split by the mantissa, and everything between is normal. -/
theorem length_filter_categories (v : Bf16) :
    ([isZero v, isSubnormal v, isNormal v, isInf v, isNan v].filter id).length = 1 := by
  simp only [List.filter_cons, id, isZero_iff, isSubnormal_iff, isNormal_iff, isInf_iff, isNan_iff]
  by_cases hlow : exponent v = 0
  · by_cases hm : mantissa v = 0 <;> simp [hlow, hm]
  · by_cases hhigh : exponent v = 255
    · by_cases hm : mantissa v = 0 <;> simp [hhigh, hm]
    · simp [hlow, hhigh]

/-! ### The classifiers, on the low 15 bits -/

/-- The exponent field stands right above the mantissa, so the low 15 bits order patterns by exponent, then by mantissa. -/
theorem exponent_mul_add_mantissa (v : Bf16) : exponent v * 2 ^ 7 + mantissa v = v.toNat % 2 ^ 15 := by
  rw [exponent_eq, mantissa_eq]
  omega

/-- R135. -/
theorem isNan_iff_low (v : Bf16) : isNan v = true ↔ 0x7F80 < v.toNat % 2 ^ 15 := by
  have he := exponent_lt v
  have hm := mantissa_lt v
  rw [isNan_iff, ← exponent_mul_add_mantissa]
  omega

/-- R136. -/
theorem isInf_iff_low (v : Bf16) : isInf v = true ↔ v.toNat % 2 ^ 15 = 0x7F80 := by
  have hm := mantissa_lt v
  rw [isInf_iff, ← exponent_mul_add_mantissa]
  omega

/-- R137. -/
theorem isZero_iff_low (v : Bf16) : isZero v = true ↔ v.toNat % 2 ^ 15 = 0 := by
  rw [isZero_iff, ← exponent_mul_add_mantissa]
  omega

/-- R72: an operand keeps the low 15 bits of its port. -/
theorem bf16Operand_low (port : Word) : (bf16Operand port).toNat % 2 ^ 15 = port.toNat % 2 ^ 15 := by
  rw [bf16Operand_toNat]
  omega

/-! ### The completing edge of each classifier -/

theorem exec_bf16IsNan (a b : Word) (s : State) :
    exec (.bf16IsNan a b) s = .next (s.completePredicate (isNan (bf16Operand a))) := rfl

theorem exec_bf16IsInf (a b : Word) (s : State) :
    exec (.bf16IsInf a b) s = .next (s.completePredicate (isInf (bf16Operand a))) := rfl

theorem exec_bf16IsZero (a b : Word) (s : State) :
    exec (.bf16IsZero a b) s = .next (s.completePredicate (isZero (bf16Operand a))) := rfl

/-- R73: the response of a classifier, by any condition `P` equivalent to its predicate. -/
theorem completePredicate_of_iff (s : State) {p : Bool} {P : Prop} [Decidable P] (h : p = true ↔ P) :
    s.completePredicate p =
      { s with rQ := if P then 1#64 else 0#64, flagQ := decide P, illegalQ := false, st := .done } := by
  have hp : p = decide P := by rw [Bool.eq_iff_iff, h, decide_eq_true_eq]
  simp only [State.completePredicate, State.complete, predicateResult_eq, flagOfPredicate, notIllegal, hp, decide_eq_true_eq]

end Sys2Proof.Machine

/-! ### The statements -/

section
open Sys2Proof Sys2Proof.Machine

/-- Settles O27: the category table, its field values read as the fields themselves. -/
theorem categoriesPartitionPatterns : Obligations.CategoriesPartitionPatterns := by
  intro v
  have hlow := exponent_eq_toNat_iff v 0#8
  have hhigh := exponent_eq_toNat_iff v 255#8
  have hm := mantissa_eq_toNat_iff v 0#7
  exact ⟨(isZero_iff v).trans (and_congr hlow hm), (isSubnormal_iff v).trans (and_congr hlow (not_congr hm)),
    (isNormal_iff v).trans (and_congr (not_congr hlow) (not_congr hhigh)), (isInf_iff v).trans (and_congr hhigh hm),
    (isNan_iff v).trans (and_congr hhigh (not_congr hm)), length_filter_categories v⟩

/-- Settles O28: each predicate on the low 15 bits of the operand, which are those of the port. -/
theorem classifierResponses : Obligations.ClassifierResponses := by
  intro a b s
  have hnan := isNan_iff_low (bf16Operand a)
  have hinf := isInf_iff_low (bf16Operand a)
  have hzero := isZero_iff_low (bf16Operand a)
  rw [bf16Operand_low] at hnan hinf hzero
  exact ⟨⟨rfl, by rw [exec_bf16IsNan, completePredicate_of_iff s hnan]⟩,
    ⟨rfl, by rw [exec_bf16IsInf, completePredicate_of_iff s hinf]⟩,
    ⟨rfl, by rw [exec_bf16IsZero, completePredicate_of_iff s hzero]⟩⟩

end
end

section
/-! PROOFS. BF16_ADD and BF16_SUB on the special values and the zeros: one rule per test of R150, in the order of the tests, the
flipped sign bit of R160, and the statements O35, O36, O37 and O43 (42_bf16_add.md R152 to R154, R160) that follow. -/

namespace Sys2Proof.Machine

/-! ### The tests of R150, in their order -/

section tests
variable {c x y : Bf16}

/-- R152. -/
theorem bf16Add_of_isNan_left (hx : isNan x = true) : bf16Add c x y = x := by rw [bf16Add, if_pos hx]

/-- R152. -/
theorem bf16Add_of_isNan_right (hx : isNan x = false) (hy : isNan y = true) : bf16Add c x y = y := by
  simp only [bf16Add, hx, Bool.false_eq_true, if_false, if_pos hy]

/-- R153: the two tests for infinity as one ordered choice. -/
theorem bf16Add_of_isInf (hx : isNan x = false) (hy : isNan y = false) (h : isInf x = true ∨ isInf y = true) :
    bf16Add c x y =
      if isInf x = true ∧ isInf y = true ∧ sign x ≠ sign y then c else if isInf x = true then x else y := by
  simp only [bf16Add, hx, hy, Bool.false_eq_true, if_false]
  cases hinf : isInf x with
  | true => simp only [Bool.and_eq_true, bne_iff_ne, true_and, if_true]
  | false =>
    have hy' : isInf y = true := h.resolve_left (by simp [hinf])
    simp only [Bool.false_eq_true, false_and, if_false, if_pos hy']

theorem isNan_eq_false_of_isZero (h : isZero x = true) : isNan x = false := by
  obtain ⟨he, -⟩ := (isZero_iff x).1 h
  simp [isNan, he]

theorem isInf_eq_false_of_isZero (h : isZero x = true) : isInf x = false := by
  obtain ⟨he, -⟩ := (isZero_iff x).1 h
  simp [isInf, he]

/-- R154: the tests before the first one for zero give the second operand as well, or do not hold of a zero. -/
theorem bf16Add_of_isZero_left (hx : isZero x = true) : bf16Add c x y = y := by
  simp only [bf16Add, isNan_eq_false_of_isZero hx, isInf_eq_false_of_isZero hx, hx, Bool.false_eq_true, if_false, if_true,
    ite_self]

/-- R154: with a zero second, every test that holds gives the nonzero first operand, the ones for NaN and infinity included. -/
theorem bf16Add_of_isZero_right (hx : isZero x = false) (hy : isZero y = true) : bf16Add c x y = x := by
  simp only [bf16Add, isNan_eq_false_of_isZero hy, isInf_eq_false_of_isZero hy, hx, hy, Bool.false_and, Bool.false_eq_true,
    if_false, if_true, ite_self]

end tests

/-! ### The flipped sign bit of R160 -/

theorem exponent_flipSign (v : Bf16) : exponent (v ^^^ 0x8000#16) = exponent v := by
  rw [exponent, BitVec.extractLsb'_xor]
  exact congrArg BitVec.toNat (BitVec.xor_zero (x := v.extractLsb' 7 8))

theorem mantissa_flipSign (v : Bf16) : mantissa (v ^^^ 0x8000#16) = mantissa v := by
  rw [mantissa, BitVec.extractLsb'_xor]
  exact congrArg BitVec.toNat (BitVec.xor_zero (x := v.extractLsb' 0 7))

/-- R135: of either sign. -/
theorem isNan_flipSign (v : Bf16) : isNan (v ^^^ 0x8000#16) = isNan v := by
  rw [isNan, exponent_flipSign, mantissa_flipSign, isNan]

/-- R72: bit 15 of the operand is bit 15 of its port. -/
theorem bf16Operand_flipSign (port : Word) : bf16Operand (port ^^^ 0x8000#32) = bf16Operand port ^^^ 0x8000#16 :=
  BitVec.extractLsb'_xor

/-! ### The completing edges -/

theorem exec_bf16Add (a b : Word) (s : State) :
    exec (.bf16Add a b) s = .next { s with
      rQ := (bf16Add s.canonNan (bf16Operand a) (bf16Operand b)).setWidth 64,
      flagQ := false, illegalQ := false, st := .done } := rfl

theorem exec_bf16Sub (a b : Word) (s : State) :
    exec (.bf16Sub a b) s = .next { s with
      rQ := (bf16Add s.canonNan (bf16Operand a) (bf16Operand b ^^^ 0x8000#16)).setWidth 64,
      flagQ := false, illegalQ := false, st := .done } := rfl

end Sys2Proof.Machine

/-! ### The statements -/

section
open Sys2Proof Sys2Proof.Machine

/-- Settles O35: the two tests for NaN. -/
theorem addPropagatesNan : Obligations.AddPropagatesNan :=
  fun a b s => ⟨fun ha => by rw [exec_bf16Add, bf16Add_of_isNan_left ha],
    fun ha hb => by rw [exec_bf16Add, bf16Add_of_isNan_right ha hb]⟩

/-- Settles O36: the tests for infinity as one ordered choice. -/
theorem addInfinities : Obligations.AddInfinities :=
  fun a b s ha hb hinf => by rw [exec_bf16Add, bf16Add_of_isInf ha hb hinf]

/-- Settles O37: a zero passes the tests for NaN and infinity, whichever operand it is. -/
theorem addZeroGivesOther : Obligations.AddZeroGivesOther :=
  fun a b s _ _ => ⟨fun ha => by rw [exec_bf16Add, bf16Add_of_isZero_left ha],
    fun ha hb => by rw [exec_bf16Add, bf16Add_of_isZero_right ha hb]⟩

/-- Settles O43: the flip commutes with the operand assembly and leaves a NaN a NaN; `+0` is a zero, so the flipped `+0` comes
back. -/
theorem subAddsFlippedSign : Obligations.SubAddsFlippedSign := by
  intro a b s
  refine ⟨?_, exec_bf16Sub a b s, fun ha hb => ?_, fun ha hb => ?_⟩
  · rw [exec_bf16Sub, exec_bf16Add, bf16Operand_flipSign]
  · exact bf16Add_of_isNan_right ha ((isNan_flipSign _).trans hb)
  · rw [ha, hb]
    exact bf16Add_of_isZero_left (by decide)

end
end

section
/-! PROOFS. BF16_MUL on the special values: which patterns are neither finite nor nonzero, one rule per outcome of R182, and the
statement O45 (43_bf16_mul.md R182) that follows. -/

namespace Sys2Proof.Machine

/-! ### The special patterns -/

/-- R139: what is neither subnormal nor normal has one of the three remaining categories. -/
theorem isNan_or_isInf_or_isZero_of_not_finiteNonzero {v : Bf16} (h : finiteNonzero v = false) :
    isNan v = true ∨ isInf v = true ∨ isZero v = true := by
  obtain ⟨hsub, hnormal⟩ : isSubnormal v = false ∧ isNormal v = false := by simpa [finiteNonzero] using h
  rw [Bool.eq_false_iff, Ne, isSubnormal_iff] at hsub
  rw [Bool.eq_false_iff, Ne, isNormal_iff] at hnormal
  rw [isNan_iff, isInf_iff, isZero_iff]
  omega

/-! ### The outcomes of R182, in the order of the tests -/

section products
variable {c x y : Bf16}

theorem isNan_eq_false_of_isInf (h : isInf x = true) : isNan x = false := by
  obtain ⟨-, hm⟩ := (isInf_iff x).1 h
  simp [isNan, hm]

/-- R182, test 1. -/
theorem bf16Mul_of_isNan_left (hx : isNan x = true) : bf16Mul c x y = x := by
  simp only [bf16Mul, if_pos hx]

/-- R182, test 1. -/
theorem bf16Mul_of_isNan_right (hx : isNan x = false) (hy : isNan y = true) : bf16Mul c x y = y := by
  simp only [bf16Mul, hx, Bool.false_eq_true, if_false, if_pos hy]

/-- R182, test 2: an infinity and a zero pass the tests for NaN, and a zero first passes the one for infinity. -/
theorem bf16Mul_of_isInf_isZero
    (h : (isInf x = true ∧ isZero y = true) ∨ (isZero x = true ∧ isInf y = true)) : bf16Mul c x y = c := by
  rcases h with ⟨hx, hy⟩ | ⟨hx, hy⟩
  · simp only [bf16Mul, isNan_eq_false_of_isInf hx, isNan_eq_false_of_isZero hy, hx, hy, Bool.false_eq_true, if_false, if_true]
  · simp only [bf16Mul, isNan_eq_false_of_isZero hx, isNan_eq_false_of_isInf hy, isInf_eq_false_of_isZero hx, hx, hy,
      Bool.false_eq_true, if_false, if_true]

/-- R182, test 3: whichever operand is the infinity, the other one is no zero. -/
theorem bf16Mul_of_isInf (hx : isNan x = false) (hy : isNan y = false)
    (hne : ¬ ((isInf x = true ∧ isZero y = true) ∨ (isZero x = true ∧ isInf y = true)))
    (h : isInf x = true ∨ isInf y = true) : bf16Mul c x y = infinity (sign x ^^^ sign y) := by
  obtain ⟨hleft, hright⟩ := not_or.1 hne
  simp only [bf16Mul, hx, hy, Bool.false_eq_true, if_false]
  by_cases hinf : isInf x = true
  · rw [if_pos hinf, if_neg fun hz => hleft ⟨hinf, hz⟩]
  · have hinf' : isInf y = true := h.resolve_left hinf
    rw [if_neg hinf, if_pos hinf', if_neg fun hz => hright ⟨hz, hinf'⟩]

/-- R182, test 4: after the tests for NaN and infinity. -/
theorem bf16Mul_of_isZero (hx : isNan x = false) (hy : isNan y = false) (hinf : ¬ (isInf x = true ∨ isInf y = true))
    (h : isZero x = true ∨ isZero y = true) : bf16Mul c x y = signedZero (sign x ^^^ sign y) := by
  obtain ⟨hleft, hright⟩ := not_or.1 hinf
  simp only [bf16Mul, hx, hy, Bool.false_eq_true, if_false, if_neg hleft, if_neg hright, Bool.or_eq_true, if_pos h]

/-- Past the tests for NaN and infinity, the operand that is not finite and nonzero is a zero. -/
theorem isZero_of_special (hx : isNan x = false) (hy : isNan y = false) (hinf : ¬ (isInf x = true ∨ isInf y = true))
    (h : finiteNonzero x = false ∨ finiteNonzero y = false) : isZero x = true ∨ isZero y = true := by
  have hcategory := h.imp isNan_or_isInf_or_isZero_of_not_finiteNonzero isNan_or_isInf_or_isZero_of_not_finiteNonzero
  simp only [hx, hy, Bool.false_eq_true, false_or] at hcategory
  tauto

/-- R182: the four tests as one ordered choice. -/
theorem bf16Mul_of_special (h : finiteNonzero x = false ∨ finiteNonzero y = false) :
    bf16Mul c x y =
      if isNan x = true then x
      else if isNan y = true then y
      else if (isInf x = true ∧ isZero y = true) ∨ (isZero x = true ∧ isInf y = true) then c
      else if isInf x = true ∨ isInf y = true then infinity (sign x ^^^ sign y)
      else signedZero (sign x ^^^ sign y) := by
  split_ifs with hx hy hinvalid hinf
  · exact bf16Mul_of_isNan_left hx
  · exact bf16Mul_of_isNan_right (Bool.eq_false_iff.2 hx) hy
  · exact bf16Mul_of_isInf_isZero hinvalid
  · exact bf16Mul_of_isInf (Bool.eq_false_iff.2 hx) (Bool.eq_false_iff.2 hy) hinvalid hinf
  · have hx' := Bool.eq_false_iff.2 hx
    have hy' := Bool.eq_false_iff.2 hy
    exact bf16Mul_of_isZero hx' hy' hinf (isZero_of_special hx' hy' hinf h)

end products

/-! ### The completing edge -/

theorem exec_bf16Mul (a b : Word) (s : State) :
    exec (.bf16Mul a b) s = .next { s with
      rQ := (bf16Mul s.canonNan (bf16Operand a) (bf16Operand b)).setWidth 64,
      flagQ := false, illegalQ := false, st := .done } := rfl

end Sys2Proof.Machine

/-! ### The statement -/

section
open Sys2Proof Sys2Proof.Machine

/-- Settles O45: the tests of R182 as one ordered choice. -/
theorem mulSpecialValues : Obligations.MulSpecialValues :=
  fun a b s h => by rw [exec_bf16Mul, bf16Mul_of_special h]

end
end

section
/-! PROOFS. BF16_DIV on the special values: one rule per outcome of R202 and R203, and the statement O49 (44_bf16_div.md R202, R203)
that follows. -/

namespace Sys2Proof.Machine

/-! ### The outcomes of R202 and R203, in the order of the tests -/

section quotients
variable {c x y : Bf16}

/-- R202. -/
theorem bf16Div_of_isNan_left (hx : isNan x = true) : bf16Div c x y = x := by
  simp only [bf16Div, if_pos hx]

/-- R202. -/
theorem bf16Div_of_isNan_right (hx : isNan x = false) (hy : isNan y = true) : bf16Div c x y = y := by
  simp only [bf16Div, hx, Bool.false_eq_true, if_false, if_pos hy]

/-- R203: infinity over infinity stops at the divisor's first test, zero over zero at its second. -/
theorem bf16Div_of_isInf_isInf_or_isZero_isZero
    (h : (isInf x = true ∧ isInf y = true) ∨ (isZero x = true ∧ isZero y = true)) : bf16Div c x y = c := by
  rcases h with ⟨hx, hy⟩ | ⟨hx, hy⟩
  · simp only [bf16Div, isNan_eq_false_of_isInf hx, isNan_eq_false_of_isInf hy, hx, hy, Bool.false_eq_true, if_false, if_true]
  · simp only [bf16Div, isNan_eq_false_of_isZero hx, isNan_eq_false_of_isZero hy, isInf_eq_false_of_isZero hy, hx, hy,
      Bool.false_eq_true, if_false, if_true]

/-- R203: an infinite divisor is tested first, a zero dividend last; such a dividend passes the tests between. -/
theorem bf16Div_of_isInf_right_or_isZero_left (hx : isNan x = false) (hy : isNan y = false)
    (hne : ¬ ((isInf x = true ∧ isInf y = true) ∨ (isZero x = true ∧ isZero y = true)))
    (h : isInf y = true ∨ isZero x = true) : bf16Div c x y = signedZero (sign x ^^^ sign y) := by
  obtain ⟨hinfs, hzeros⟩ := not_or.1 hne
  simp only [bf16Div, hx, hy, Bool.false_eq_true, if_false]
  by_cases hinf : isInf y = true
  · rw [if_pos hinf, if_neg fun hinf' => hinfs ⟨hinf', hinf⟩]
  · have hzero : isZero x = true := h.resolve_left hinf
    rw [if_neg hinf, if_neg fun hzero' => hzeros ⟨hzero, hzero'⟩, isInf_eq_false_of_isZero hzero, if_neg Bool.false_ne_true,
      if_pos hzero]

/-- R203: a zero divisor and an infinite dividend, each with the other operand past its own tests. -/
theorem bf16Div_of_isInf_left_or_isZero_right (hx : isNan x = false) (hy : isNan y = false)
    (hne : ¬ (isInf y = true ∨ isZero x = true))
    (h : isInf x = true ∨ isZero y = true) : bf16Div c x y = infinity (sign x ^^^ sign y) := by
  obtain ⟨hinf, hzero⟩ := not_or.1 hne
  simp only [bf16Div, hx, hy, Bool.false_eq_true, if_false, if_neg hinf]
  by_cases hzero' : isZero y = true
  · rw [if_pos hzero', if_neg hzero]
  · rw [if_neg hzero', if_pos (h.resolve_right hzero')]

/-- Past the tests that give a NaN or a zero, a special pair is an infinite dividend or a zero divisor. -/
theorem isInf_left_or_isZero_right_of_special (hx : isNan x = false) (hy : isNan y = false)
    (hne : ¬ (isInf y = true ∨ isZero x = true)) (h : finiteNonzero x = false ∨ finiteNonzero y = false) :
    isInf x = true ∨ isZero y = true := by
  have hcategory := h.imp isNan_or_isInf_or_isZero_of_not_finiteNonzero isNan_or_isInf_or_isZero_of_not_finiteNonzero
  simp only [hx, hy, Bool.false_eq_true, false_or] at hcategory
  tauto

/-- R202, R203: the tests as one ordered choice. -/
theorem bf16Div_of_special (h : finiteNonzero x = false ∨ finiteNonzero y = false) :
    bf16Div c x y =
      if isNan x = true then x
      else if isNan y = true then y
      else if (isInf x = true ∧ isInf y = true) ∨ (isZero x = true ∧ isZero y = true) then c
      else if isInf y = true ∨ isZero x = true then signedZero (sign x ^^^ sign y)
      else infinity (sign x ^^^ sign y) := by
  split_ifs with hx hy hinvalid hzero
  · exact bf16Div_of_isNan_left hx
  · exact bf16Div_of_isNan_right (Bool.eq_false_iff.2 hx) hy
  · exact bf16Div_of_isInf_isInf_or_isZero_isZero hinvalid
  · exact bf16Div_of_isInf_right_or_isZero_left (Bool.eq_false_iff.2 hx) (Bool.eq_false_iff.2 hy) hinvalid hzero
  · have hx' := Bool.eq_false_iff.2 hx
    have hy' := Bool.eq_false_iff.2 hy
    exact bf16Div_of_isInf_left_or_isZero_right hx' hy' hzero (isInf_left_or_isZero_right_of_special hx' hy' hzero h)

end quotients

/-! ### The completing edge -/

theorem exec_bf16Div (a b : Word) (s : State) :
    exec (.bf16Div a b) s = .next { s with
      rQ := (bf16Div s.canonNan (bf16Operand a) (bf16Operand b)).setWidth 64,
      flagQ := false, illegalQ := false, st := .done } := rfl

end Sys2Proof.Machine

/-! ### The statement -/

section
open Sys2Proof Sys2Proof.Machine

/-- Settles O49: the tests of R202 and R203 as one ordered choice. -/
theorem divSpecialValues : Obligations.DivSpecialValues :=
  fun a b s h => by rw [exec_bf16Div, bf16Div_of_special h]

end
end

section
/-! PROOFS. RSQRT at its special inputs: the completing edge, the tests of R220 step 1, one Newton-Raphson pass whose square leaves
the word, and the statement O55 (45_rsqrt.md R221) that follows. -/

namespace Sys2Proof.Machine

/-! ### The completing edge -/

theorem exec_rsqrt (a b : Word) (s : State) :
    exec (.rsqrt a b) s = .next { s with
      rQ := (rsqrt s.rom a).setWidth 64, flagQ := false, illegalQ := false, st := .done } := rfl

/-! ### The special inputs -/

@[simp] theorem rsqrt_zero (rom : Vector Word 32) : rsqrt rom 0#32 = 0xFFFFFFFF#32 := if_pos rfl

@[simp] theorem rsqrt_one (rom : Vector Word 32) : rsqrt rom 1#32 = 65536#32 := by
  have hne : (1#32 : Word) ≠ 0#32 := by decide
  rw [rsqrt, if_neg hne, if_pos rfl]

/-! ### A pass whose square leaves the word -/

/-- R221, R225: where no bit of `y * y` is left in the word, the pass no longer sees its input: it multiplies `y` by 3/2. -/
theorem newtonNat_of_square_mod_eq_zero {x y : Nat} (h : y * y % 2 ^ 32 = 0) :
    newtonNat x y = y * (3 * 2 ^ 16) / 2 ^ 17 % 2 ^ 32 := by
  have hthree : (3 * 2 ^ 16 + 2 ^ 32) % 2 ^ 32 = 3 * 2 ^ 16 := by norm_num
  simp only [newtonNat, h, Nat.mul_zero, Nat.zero_div, Nat.zero_mod, Nat.sub_zero, hthree]

/-- R221: why 1 is special. The square of its exact root, 65536 in Q16.16, is `2^32`. -/
theorem newtonPass_one_exact_root : newtonPass 1#32 65536#32 = 98304#32 := by
  have hwrap : (65536#32 : Word).toNat * (65536#32 : Word).toNat % 2 ^ 32 = 0 := by decide
  apply BitVec.eq_of_toNat_eq
  rw [newtonPass_toNat, newtonNat_of_square_mod_eq_zero hwrap]
  rfl

end Sys2Proof.Machine

/-! ### The statement -/

section
open Sys2Proof Sys2Proof.Machine

/-- Settles O55: the completing edge at the two special inputs, and the pass that 1 would have taken. -/
theorem rsqrtSpecialInputs : Obligations.RsqrtSpecialInputs :=
  ⟨fun b s => ⟨by rw [exec_rsqrt, rsqrt_zero]; rfl, by rw [exec_rsqrt, rsqrt_one]; rfl⟩, newtonPass_one_exact_root⟩

end
end

section
/-! PROOFS. The reset edge: the step equation, the ports at and after the edge, and the statement O7 (70_reset_and_hazards.md R270)
that follows. -/

namespace Sys2Proof.Machine

variable {s : State}

/-- R36: reset comes before everything else, in each of the four values of `ST`. -/
theorem step_reset (hr : s.pins.rst = true) : step s = .next s.endEdge.resetEdge := by
  rw [step, edgeKind_reset hr]

/-- R270: a response that is shown at a reset edge is not transferred, ready host or not. -/
theorem takenResponse_reset (hr : s.pins.rst = true) : s.takenResponse = none := by
  simp [State.takenResponse, hr]

@[simp] theorem reqReady_resetEdge (s : State) : s.resetEdge.reqReady = true := reqReady_iff.2 (resetEdge_st s)

@[simp] theorem rspValid_resetEdge (s : State) : s.resetEdge.rspValid = false := by
  simp [State.rspValid]

end Sys2Proof.Machine

/-! ### The statement -/

section
open Sys2Proof Sys2Proof.Machine

/-- Settles O7: the step equation of a reset edge; the state after it is in `IDLE`, so the next edge without reset accepts. -/
theorem resetEdgeReturnsToIdle : Obligations.ResetEdgeReturnsToIdle := by
  intro s hr
  refine ⟨s.endEdge.resetEdge, 0, step_reset hr, rfl, reqReady_resetEdge s.endEdge, rspValid_resetEdge s.endEdge,
    takenResponse_reset hr, ?_⟩
  intro hr' hv'
  exact ⟨_, step_idle_accept hr' (resetEdge_st _) hv', acceptRequest_st _ _⟩

end
end

section
/-! PROOFS. The encoding round trips and the completing edge: the decoder inverts the encoder and the encoder the decoder, a latched or
placed request word is run at the next edge, and the statements O1 to O6 (30_encoding.md R70, R71; 10_state.md R33) that follow. -/

namespace Sys2Proof

/-! ### The round trips -/

/-- R71: each of the sixteen instructions has the code of its own row of the decoder. -/
theorem decode_encode (i : Instr) : decode (encode i) = i := by
  cases i <;> rfl

/-- R70: a word is the concatenation of its three fields. -/
theorem toWord_ofWord (w : ReqWord) : (Request.ofWord w).toWord = w := by
  have hw := w.isLt
  apply BitVec.eq_of_toNat_eq
  rw [toWord_toNat, ofWord_op_toNat, ofWord_a_toNat, ofWord_b_toNat]
  omega

/-- R70: the word of a request means what the request means. -/
theorem decodeWord_toWord (r : Request) : decodeWord r.toWord = decode r := by
  rw [decodeWord, ofWord_toWord]

/-- R70: the table decoder answers only with the instruction of the 68 bits it was given. -/
theorem decodeWord_of_decodeTableWord {nbits w : Nat} {i : Instr} (h : decodeTableWord nbits w = some i) :
    decodeWord (BitVec.ofNat 68 (w % 2 ^ nbits)) = i := by
  by_cases hlt : w % 2 ^ nbits < 2 ^ 68
  · simpa only [decodeTableWord, decodeNat, if_pos hlt, Option.some.injEq] using h
  · simp only [decodeTableWord, decodeNat, if_neg hlt, reduceCtorEq] at h

end Sys2Proof

namespace Sys2Proof.Machine

variable {s : State}

/-! ### The edges of BUSY -/

/-- R33: an edge of `BUSY` before the completing one. -/
theorem step_busy_wait (hr : s.pins.rst = false) (hs : s.st = .busy) (hw : s.edgesLeft ≠ 0) :
    step s = .next s.endEdge.waitEdge := by
  rw [step, edgeKind_busy_wait hr hs hw]

/-- R33: the completing edge. -/
theorem step_busy_complete (hr : s.pins.rst = false) (hs : s.st = .busy) (hw : s.edgesLeft = 0) :
    step s = exec (decode s.request) s.endEdge := by
  rw [step, edgeKind_busy_complete hr hs hw]

/-- The next edge of a placed request is its completing edge (log 2). -/
theorem step_placeRequest (s : State) (r : Request) : step (s.placeRequest r) = exec (decode r) (s.placeRequest r).endEdge := by
  rw [step_busy_complete (placeRequest_rst s r) (placeRequest_st s r) (placeRequest_edgesLeft s r), placeRequest_request]

end Sys2Proof.Machine

/-! ### The statements -/

section
open Sys2Proof Sys2Proof.Machine

/-- Settles O1: the fields are read back from the word, and the instruction from the fields. -/
theorem decodeInvertsEncode : Obligations.DecodeInvertsEncode := by
  intro i
  rw [encodeWord, decodeWord_toWord, decode_encode]

/-- Settles O2: the request of the decoded instruction is the one decoded, and its word the one given. -/
theorem encodeInvertsDecode : Obligations.EncodeInvertsDecode := by
  intro w
  rw [encodeWord, decodeWord, encode_decode, toWord_ofWord]

/-- Settles O3: each listed word is the encoding of the operation listed with it. -/
theorem listedWordsDecode : Obligations.ListedWordsDecode :=
  ⟨decodeInvertsEncode (.bf16Add 0x3F80#32 0xBF80#32), decodeInvertsEncode (.bf16Div 0x4049#32 0x3F80#32),
    decodeInvertsEncode (.bf16IsZero 0x8000#32 0x0#32), decodeInvertsEncode (.reserved7 0x3F80#32 0x3F80#32),
    decodeInvertsEncode (.idiv 0xFFFFFFFE#32 0x7#32), decodeInvertsEncode (.rsqrt 0xF4240#32 0x0#32)⟩

/-- Settles O4: each code is the one its instruction encodes to. -/
theorem operationCodesSelect : Obligations.OperationCodesSelect :=
  fun a b => ⟨decode_encode (.bf16Add a b), decode_encode (.bf16Sub a b), decode_encode (.bf16Mul a b),
    decode_encode (.bf16Div a b), decode_encode (.bf16IsNan a b), decode_encode (.bf16IsInf a b),
    decode_encode (.bf16IsZero a b), decode_encode (.reserved7 a b), decode_encode (.imul a b), decode_encode (.idiv a b),
    decode_encode (.imod a b), decode_encode (.lzc a b), decode_encode (.rsqrt a b), decode_encode (.reservedD a b),
    decode_encode (.reservedE a b), decode_encode (.reservedF a b)⟩

/-- Settles O5: the step equation of the completing edge, the latched request named by its word. -/
theorem stepRunsLatchedRequest : Obligations.StepRunsLatchedRequest := by
  intro s i hr hs hw hi
  rw [step_busy_complete hr hs hw, ← decodeWord_toWord, hi]

/-- Settles O6: placing a word makes the next edge its completing edge. -/
theorem stepRunsPlacedWord : Obligations.StepRunsPlacedWord := by
  intro s nbits w i hi
  rw [State.withFetchWord, step_placeRequest, ← decodeWord_of_decodeTableWord hi, decodeWord]

end
end

section
/-! PROOFS. The invariants of a step: which states have a next one, that a step keeps a legal state legal, what a step never writes, and
the statements O16 to O19 (10_state.md R28, R29, R33) that follow. -/

namespace Sys2Proof.Machine

variable {s t : State}

/-! ### Where a step stops -/

/-- R29, U7: the one fault. -/
theorem step_eleven (hr : s.pins.rst = false) (hs : s.st = .eleven) : step s = .fault .stEleven := by
  rw [step, edgeKind_eleven hr hs]

/-- R39: every other edge has a next state. -/
theorem exists_step_next (h : ¬ (s.pins.rst = false ∧ s.st = .eleven)) : ∃ t, step s = .next t := by
  cases hr : s.pins.rst with
  | true => exact ⟨_, step_reset hr⟩
  | false =>
    cases hs : s.st with
    | idle =>
      cases hv : s.pins.reqValid with
      | true => exact ⟨_, step_idle_accept hr hs hv⟩
      | false => exact ⟨_, step_idle_hold hr hs hv⟩
    | busy =>
      by_cases hw : s.edgesLeft = 0
      · obtain ⟨r, flag, illegal, he⟩ := exec_next (decode s.request) s.endEdge
        exact ⟨_, (step_busy_complete hr hs hw).trans he⟩
      · exact ⟨_, step_busy_wait hr hs hw⟩
    | done =>
      cases hv : s.pins.rspReady with
      | true => exact ⟨_, step_done_take hr hs hv⟩
      | false => exact ⟨_, step_done_hold hr hs hv⟩
    | eleven => exact absurd ⟨hr, hs⟩ h

/-! ### The completing edge, with the response of `F` -/

/-- The state `s` completed with the response of `F` for its latched request. -/
def State.completeRequest (s : State) : State :=
  s.complete (operationFunction s.rom s.canonNan s.request).r (operationFunction s.rom s.canonNan s.request).flag
    (operationFunction s.rom s.canonNan s.request).illegal

@[simp] theorem completeRequest_st (s : State) : s.completeRequest.st = .done := rfl

@[simp] theorem completeRequest_canonNan (s : State) : s.completeRequest.canonNan = s.canonNan := rfl

@[simp] theorem completeRequest_edgesLeft (s : State) : s.completeRequest.edgesLeft = s.edgesLeft := rfl

@[simp] theorem completeRequest_heldResponse (s : State) :
    s.completeRequest.heldResponse = operationFunction s.rom s.canonNan s.request := rfl

/-- R33, R74: the instruction decoded from the latched request completes with `F` of that request. -/
theorem exec_decode_request (s : State) : exec (decode s.request) s = .next s.completeRequest :=
  execIsOperationFunction s.request s

/-! ### The legal states -/

/-- Without a response present and without an operation in flight, only `CANON_NAN` and the counter matter. -/
theorem legal_of_idle (hs : t.st = .idle) (hnan : isNan t.canonNan = true) (hw : t.edgesLeft = 0) : Legal t :=
  ⟨by simp [hs], hnan, fun _ => hw, fun h => by simp [hs] at h⟩

theorem legal_of_busy (hs : t.st = .busy) (hnan : isNan t.canonNan = true) : Legal t :=
  ⟨by simp [hs], hnan, fun h => absurd hs h, fun h => by simp [hs] at h⟩

/-- The completing edge is what makes a response the one of `F`. -/
theorem legal_completeRequest (hnan : isNan s.canonNan = true) (hw : s.edgesLeft = 0) : Legal s.completeRequest :=
  ⟨by simp, hnan, fun _ => hw, fun _ => completeRequest_heldResponse s⟩

/-- `Legal` does not look at the host's inputs or at the count of edges. -/
theorem Legal.endEdge (h : Legal s) : Legal s.endEdge := ⟨h.st, h.nan, h.wait, h.response⟩

end Sys2Proof.Machine

/-! ### The statements -/

section
open Sys2Proof Sys2Proof.Machine

/-- Settles O16: edge by edge. Only the completing edge makes a response present, and it writes the one of `F`. -/
theorem everyStepKeepsLegal : Obligations.EveryStepKeepsLegal := by
  intro s t hl h
  rcases step_next_cases h with ⟨-, rfl⟩ |
    ⟨-, ⟨-, -, rfl⟩ | ⟨-, -, rfl⟩ | ⟨hs, -, rfl⟩ | ⟨-, hw, he⟩ | ⟨-, -, rfl⟩ | ⟨hs, -, rfl⟩⟩
  case inl => exact legal_of_idle rfl hl.nan rfl
  case inr.inl => exact hl.endEdge
  case inr.inr.inl => exact legal_of_busy rfl hl.nan
  case inr.inr.inr.inl => exact legal_of_busy hs hl.nan
  case inr.inr.inr.inr.inl =>
    rw [← endEdge_request, exec_decode_request] at he
    cases he
    exact legal_completeRequest hl.nan hw
  case inr.inr.inr.inr.inr.inl => exact hl.endEdge
  case inr.inr.inr.inr.inr.inr => exact legal_of_idle rfl hl.nan (hl.wait (by simp [hs]))

/-- Settles O17: the reset state is in `IDLE`, its `CANON_NAN` the default NaN. -/
theorem resetStateIsLegal : Obligations.ResetStateIsLegal := legal_of_idle rfl (by decide) rfl

/-- Settles O18: every edge but the one of `0b11` has a next state, and a legal state never has that value. -/
theorem faultOnlyAtUnreachableSt : Obligations.FaultOnlyAtUnreachableSt := by
  intro s
  by_cases h : s.pins.rst = false ∧ s.st = .eleven
  · have hfault := step_eleven h.1 h.2
    exact ⟨⟨fun _ => h, fun _ => hfault⟩, fun r => by simp [hfault], fun hl => absurd h.2 hl.st⟩
  · obtain ⟨t, ht⟩ := exists_step_next h
    exact ⟨⟨fun hf => by simp [ht] at hf, fun h' => absurd h' h⟩, fun r => by simp [ht], fun _ => ⟨t, ht⟩⟩

/-- Settles O19: no kind of edge updates either field; the completing edge writes the response alone. -/
theorem tableNeverWritten : Obligations.TableNeverWritten := by
  intro s t h
  rcases step_next_cases h with ⟨-, rfl⟩ |
    ⟨-, ⟨-, -, rfl⟩ | ⟨-, -, rfl⟩ | ⟨-, -, rfl⟩ | ⟨-, -, he⟩ | ⟨-, -, rfl⟩ | ⟨-, -, rfl⟩⟩
  case inr.inr.inr.inr.inl =>
    obtain ⟨r, flag, illegal, rfl⟩ := eq_complete_of_exec he
    exact ⟨rfl, rfl⟩
  all_goals exact ⟨rfl, rfl⟩

end
end

section
/-! PROOFS. Runs of edges: what the host drives within the edges looked at, a response held and an operation in flight over any number of
edges, and the statements O11, O12, O14 and O15 (10_state.md R33, R37; 70_reset_and_hazards.md R274 to R279) that follow. -/

namespace Sys2Proof.Machine

variable {s t : State}

/-! ### What the host drives -/

/-- A condition on the entries of the next edges holds of the ports at the next edge, if it holds of ports at 0 (log 1). -/
theorem pins_of_forall_take {P : Inputs → Prop} {n : Nat} (hzero : P ⟨false, false, 0#4, 0#32, 0#32, false⟩)
    (h : ∀ p ∈ s.inputs.take (n + 1), P p) : P s.pins := by
  cases hin : s.inputs with
  | nil => rwa [pins_of_nil hin]
  | cons p ps =>
    rw [pins_of_cons hin]
    exact h p (by simp [hin])

/-- The entries left after the next edge are among those that were to come. -/
theorem forall_take_tail {P : Inputs → Prop} {n : Nat} {l : List Inputs} (h : ∀ p ∈ l.take (n + 1), P p) :
    ∀ p ∈ l.tail.take n, P p := by
  cases l with
  | nil => simp
  | cons q qs => exact fun p hp => h p (List.mem_cons_of_mem q hp)

/-! ### Runs -/

/-- One more edge at the end of a run. -/
theorem runEdges_succ_of_runEdges (n : Nat) (h : runEdges n s = .next t) : runEdges (n + 1) s = runEdges 1 t := by
  induction n generalizing s with
  | zero =>
    cases h
    rfl
  | succ n ih =>
    rw [runEdges] at h
    split at h
    next u hu => rw [runEdges_succ_of_step _ hu, ih h]
    next => cases h
    next => cases h

/-- R275: a response is held for as long as the host does not take it and does not reset. -/
theorem runEdges_done_hold (n : Nat) (hs : s.st = .done)
    (h : ∀ p ∈ s.inputs.take n, p.rst = false ∧ p.rspReady = false) :
    runEdges n s = .next { s with inputs := s.inputs.drop n, edges := s.edges + n } := by
  induction n generalizing s with
  | zero => rfl
  | succ n ih =>
    obtain ⟨hr, hv⟩ := pins_of_forall_take (P := fun p => p.rst = false ∧ p.rspReady = false) ⟨rfl, rfl⟩ h
    rw [runEdges_succ_of_step n (step_done_hold hr hs hv), ih (s := s.endEdge) hs (forall_take_tail h)]
    simp only [State.endEdge, List.drop_tail, Nat.add_assoc, Nat.add_comm 1 n]

/-- R33: an operation in flight waits for as many edges as are left, whatever else the host drives. -/
theorem runEdges_busy_wait (n : Nat) (hs : s.st = .busy) (hn : n ≤ s.edgesLeft) (h : ∀ p ∈ s.inputs.take n, p.rst = false) :
    runEdges n s =
      .next { s with edgesLeft := s.edgesLeft - n, inputs := s.inputs.drop n, edges := s.edges + n } := by
  induction n generalizing s with
  | zero => rfl
  | succ n ih =>
    have hr := pins_of_forall_take (P := fun p => p.rst = false) rfl h
    have hleft : n ≤ s.endEdge.waitEdge.edgesLeft := by
      simp only [waitEdge_edgesLeft, endEdge_edgesLeft]
      omega
    rw [runEdges_succ_of_step n (step_busy_wait hr hs (by omega)), ih (s := s.endEdge.waitEdge) hs hleft (forall_take_tail h)]
    simp only [State.endEdge, State.waitEdge, List.drop_tail, Nat.add_assoc, Nat.sub_sub, Nat.add_comm 1 n]

/-- R33: at the completing edge the response of `F` is written. -/
theorem runEdges_one_complete (hr : s.pins.rst = false) (hs : s.st = .busy) (hw : s.edgesLeft = 0) :
    runEdges 1 s = .next s.endEdge.completeRequest := by
  have hstep : step s = .next s.endEdge.completeRequest := by
    rw [step_busy_complete hr hs hw, ← endEdge_request, exec_decode_request]
  rw [runEdges_succ_of_step 0 hstep, runEdges]

/-! ### A request in flight -/

/-- The state `k` edges after the edges that began at `s`, with the request of `p` accepted at the first of them and still in
flight. -/
def State.inFlight (s : State) (p : Inputs) (k : Nat) : State :=
  { s with opQ := p.reqOp, aQ := p.reqA, bQ := p.reqB, st := .busy, edgesLeft := Config.latency p.reqOp - k,
           inputs := s.inputs.drop k, edges := s.edges + k }

section accepted
variable {p : Inputs} {rest : List Inputs} (hs : s.st = .idle) (hin : s.inputs = p :: rest) (hp : p.rst = false)
  (hvalid : p.reqValid = true) (hrest : ∀ q ∈ rest.take (Config.latency p.reqOp), q.rst = false)
include hs hin hp hvalid hrest

/-- R33: from the accepting edge up to `LATENCY(op)`. -/
theorem runEdges_inFlight {k : Nat} (h1 : 1 ≤ k) (hk : k ≤ Config.latency p.reqOp) : runEdges k s = .next (s.inFlight p k) := by
  obtain ⟨n, rfl⟩ := Nat.exists_eq_add_of_le' h1
  have hpins := pins_of_cons hin
  have haccept : step s = .next (s.endEdge.acceptRequest p) := by
    rw [step_idle_accept (by rw [hpins, hp]) hs (by rw [hpins, hvalid]), hpins]
  have hwait : ∀ q ∈ (s.endEdge.acceptRequest p).inputs.take n, q.rst = false := by
    intro q hq
    rw [acceptRequest_inputs, endEdge_inputs, hin, List.tail_cons] at hq
    exact hrest q ((List.take_subset_take_left rest (by omega)) hq)
  rw [runEdges_succ_of_step n haccept, runEdges_busy_wait n rfl (by rw [acceptRequest_edgesLeft]; omega) hwait]
  simp only [State.endEdge, State.acceptRequest, State.inFlight, List.drop_tail, Nat.add_assoc, Nat.sub_sub, Nat.add_comm 1 n]

/-- R33: at the edge `LATENCY(op)` after the accepting one. -/
theorem runEdges_latency_add_one :
    runEdges (Config.latency p.reqOp + 1) s = .next (s.inFlight p (Config.latency p.reqOp)).endEdge.completeRequest := by
  have hpos : 1 ≤ Config.latency p.reqOp := Nat.le_add_left 1 _
  have hfly := runEdges_inFlight hs hin hp hvalid hrest hpos (Nat.le_refl _)
  have hr : (s.inFlight p (Config.latency p.reqOp)).pins.rst = false := by
    refine pins_of_forall_take (P := fun q => q.rst = false) (n := 0) rfl fun q hq => hrest q ?_
    obtain ⟨n, hn⟩ := Nat.exists_eq_add_of_le' hpos
    rw [State.inFlight, hin, hn, List.drop_succ_cons] at hq
    rw [hn, List.take_add]
    exact List.mem_append_right _ hq
  rw [runEdges_succ_of_runEdges _ hfly, runEdges_one_complete hr rfl (Nat.sub_self _)]

end accepted

/-- R30, R34: outside `DONE` there is no response, and none to take. -/
theorem no_response_of_not_done (h : s.st ≠ .done) : s.outputs.rspValid = false ∧ s.takenResponse = none := by
  have hvalid : s.rspValid = false := Bool.eq_false_iff.2 fun hv => h (rspValid_iff.1 hv)
  exact ⟨hvalid, by simp [State.takenResponse, hvalid]⟩

theorem outputs_reqReady_eq_false (h : s.st ≠ .idle) : s.outputs.reqReady = false :=
  Bool.eq_false_iff.2 fun hr => h (reqReady_iff.1 hr)

/-! ### The request ports outside IDLE -/

/-- R39: outside `IDLE` the kind of an edge depends on the two other ports alone, and no such edge accepts. -/
theorem edgeKind_of_not_idle (hi : s.st ≠ .idle) (hst : t.st = s.st) (hleft : t.edgesLeft = s.edgesLeft)
    (hr : t.pins.rst = s.pins.rst) (hv : t.pins.rspReady = s.pins.rspReady) :
    t.edgeKind = s.edgeKind ∧ s.edgeKind ≠ .accept := by
  simp only [State.edgeKind, hst, hleft, hr, hv]
  cases hs : s.st
  case idle => exact absurd hs hi
  all_goals
    refine ⟨rfl, ?_⟩
    split_ifs <;> simp

/-- R39: a step looks at the ports through the kind of the edge, and at the request ports where it accepts. -/
theorem step_congr (hkind : t.edgeKind = s.edgeKind) (hne : s.edgeKind ≠ .accept) (hend : t.endEdge = s.endEdge) :
    step t = step s := by
  have hreq : t.request = s.request := by rw [← endEdge_request t, hend, endEdge_request]
  unfold step
  rw [hkind, hend, hreq]
  cases hk : s.edgeKind
  case accept => exact absurd hk hne
  all_goals rfl

end Sys2Proof.Machine

/-! ### The statements -/

section
open Sys2Proof Sys2Proof.Machine

/-- Settles O11: the edges in flight, then the completing one. -/
theorem requestCompletesAfterLatency : Obligations.RequestCompletesAfterLatency := by
  intro s p rest hs hin hp hvalid hrest
  refine ⟨fun k h1 hk => runEdges_inFlight hs hin hp hvalid hrest h1 hk, ?_⟩
  rw [Nat.add_comm 1, runEdges_latency_add_one hs hin hp hvalid hrest]
  simp only [State.completeRequest, State.complete, State.endEdge, State.inFlight, State.request, List.tail_drop, Nat.sub_self,
    Nat.add_assoc]

/-- Settles O12: in flight nothing is present or taken and the unit is not ready; the response then present is `F`'s, and the next edge
takes it. -/
theorem fastestCycleTakesResponse : Obligations.FastestCycleTakesResponse := by
  intro s p rest hs hin hp hvalid hrest
  have hdone := runEdges_latency_add_one hs hin hp hvalid hrest
  refine ⟨fun k hk => ?_, ⟨_, hdone, rfl, rfl⟩, fun q hq hqr hqv => ?_⟩
  · rcases Nat.eq_zero_or_pos k with rfl | h1
    · obtain ⟨hpresent, htaken⟩ := no_response_of_not_done (s := s) (by simp [hs])
      exact ⟨s, rfl, hpresent, htaken, fun h => absurd h (by omega)⟩
    · have hbusy : (s.inFlight p k).st = .busy := rfl
      obtain ⟨hpresent, htaken⟩ := no_response_of_not_done (s := s.inFlight p k) (by simp [hbusy])
      exact ⟨_, runEdges_inFlight hs hin hp hvalid hrest h1 hk, hpresent, htaken,
        fun _ => outputs_reqReady_eq_false (by simp [hbusy])⟩
  · have hpins : (s.inFlight p (Config.latency p.reqOp)).endEdge.completeRequest.pins = q := by
      obtain ⟨hlt, hget⟩ := List.getElem?_eq_some_iff.1 hq
      refine pins_of_cons (ps := rest.drop (Config.latency p.reqOp + 1)) ?_
      simp only [State.completeRequest, complete_inputs, endEdge_inputs, State.inFlight, hin, List.tail_drop,
        List.drop_succ_cons]
      rw [List.drop_eq_getElem_cons hlt, hget]
    have hrst := (congrArg Inputs.rst hpins).trans hqr
    have hready := (congrArg Inputs.rspReady hpins).trans hqv
    have hstep := step_done_take hrst (completeRequest_st _) hready
    have hnext : runEdges (Config.latency p.reqOp + 2) s = _ :=
      (runEdges_succ_of_runEdges _ hdone).trans (runEdges_succ_of_step 0 hstep)
    exact ⟨_, _, hdone, takenResponse_done_ready hrst rfl hready, hnext, rfl⟩

/-- Settles O14: the ports replaced enter neither the kind of the edge nor the state it leaves. -/
theorem requestPortsIgnoredUnlessIdle : Obligations.RequestPortsIgnoredUnlessIdle := by
  intro s p p' rest hi hr hv
  obtain ⟨hkind, hne⟩ := edgeKind_of_not_idle (s := { s with inputs := p :: rest }) (t := { s with inputs := p' :: rest })
    hi rfl rfl hr hv
  exact step_congr hkind hne rfl

/-- Settles O15: the run that holds the response; the response ports show the registers, which are kept. -/
theorem responseStableUntilTaken : Obligations.ResponseStableUntilTaken := by
  intro n s hs h
  exact ⟨_, runEdges_done_hold n hs h, rfl, by simp [State.outputs, State.rspValid, State.reqReady, hs]⟩

end
end

section
/-! PROOFS. What an operation reads: the table is an argument of RSQRT alone, the ignored operand bits of none, and the statements O21 and
O22 (20_memory.md R51; 30_encoding.md R72) that follow. -/

namespace Sys2Proof.Machine

/-- R51: `F` passes the table on for the code of RSQRT alone. -/
theorem operationFunction_rom {r : Request} (h : r.op ≠ 0xC#4) (rom rom' : Vector Word 32) (c : Bf16) :
    operationFunction rom c r = operationFunction rom' c r := by
  simp only [operationFunction, if_neg h]

/-- R72: the two operands of bf16 arithmetic are the low halves. -/
theorem exec_bf16_arith_congr {a a' b b' : Word} (ha : bf16Operand a = bf16Operand a') (hb : bf16Operand b = bf16Operand b')
    (s : State) :
    exec (.bf16Add a b) s = exec (.bf16Add a' b') s ∧ exec (.bf16Sub a b) s = exec (.bf16Sub a' b') s ∧
    exec (.bf16Mul a b) s = exec (.bf16Mul a' b') s ∧ exec (.bf16Div a b) s = exec (.bf16Div a' b') s := by
  simp only [exec_bf16Add, exec_bf16Sub, exec_bf16Mul, exec_bf16Div, ha, hb, and_self]

/-- R72: the one operand of a classifier is the low half of port A. -/
theorem exec_classifier_congr {a a' : Word} (ha : bf16Operand a = bf16Operand a') (b b' : Word) (s : State) :
    exec (.bf16IsNan a b) s = exec (.bf16IsNan a' b') s ∧ exec (.bf16IsInf a b) s = exec (.bf16IsInf a' b') s ∧
    exec (.bf16IsZero a b) s = exec (.bf16IsZero a' b') s := by
  simp only [exec_bf16IsNan, exec_bf16IsInf, exec_bf16IsZero, ha, and_self]

end Sys2Proof.Machine

/-! ### The statements -/

section
open Sys2Proof Sys2Proof.Machine

/-- Settles O21: each request completes with `F`, which reads the table for RSQRT's code alone. -/
theorem onlyRsqrtReadsTable : Obligations.OnlyRsqrtReadsTable := by
  intro r s rom h
  refine ⟨_, execIsOperationFunction r s, ?_⟩
  rw [execIsOperationFunction, operationFunction_rom h s.rom rom]

/-- Settles O22: the bits read are those of the operands; LZC and RSQRT do not look at port B, a reserved code at neither. -/
theorem ignoredBitsChangeNothing : Obligations.IgnoredBitsChangeNothing :=
  ⟨fun _ _ _ _ s ha hb => exec_bf16_arith_congr (bf16Operand_congr ha) (bf16Operand_congr hb) s,
    fun _ _ b b' s ha => exec_classifier_congr (bf16Operand_congr ha) b b' s,
    fun _ _ _ _ => ⟨rfl, rfl⟩, fun _ _ _ _ _ => ⟨rfl, rfl, rfl, rfl⟩⟩

end
end

section
/-! PROOFS. The count by halving: what one halving step keeps, and the statement O34 (40_integer.md R106) that follows. -/

namespace Sys2Proof.Machine

theorem toNat_ne_zero {x : Word} (hx : x ≠ 0#32) : x.toNat ≠ 0 := fun h => hx (BitVec.eq_of_toNat_eq (by simpa using h))

/-- A left shift that loses no bit moves the top set bit up. -/
theorem log2_mul_two_pow {m : Nat} (h : m ≠ 0) (k : Nat) : Nat.log2 (m * 2 ^ k) = Nat.log2 m + k := by
  obtain ⟨hle, hlt⟩ := (Nat.log2_eq_iff h).1 rfl
  refine (Nat.log2_eq_iff (by positivity)).2 ⟨?_, ?_⟩
  · rw [pow_add]
    exact Nat.mul_le_mul_right _ hle
  · rw [Nat.add_right_comm, pow_add _ _ k]
    exact Nat.mul_lt_mul_of_pos_right hlt (by positivity)

/-- Shifting the leading zeros of a nonzero word out counts them (R106). -/
theorem lzc_shiftLeft {y : Word} (hy : y ≠ 0#32) {w : Nat} (hw : w ≤ lzc y) : y <<< w ≠ 0#32 ∧ w + lzc (y <<< w) = lzc y := by
  have h0 := toNat_ne_zero hy
  have hlog := log2_lt_of_lt h0 y.isLt
  rw [lzc_eq y hy] at hw ⊢
  have hfit : y.toNat * 2 ^ w < 2 ^ 32 :=
    (Nat.log2_lt (by positivity)).1 (by rw [log2_mul_two_pow h0]; omega)
  have hval : (y <<< w).toNat = y.toNat * 2 ^ w := by
    rw [BitVec.toNat_shiftLeft, Nat.shiftLeft_eq, Nat.mod_eq_of_lt hfit]
  have hne : y <<< w ≠ 0#32 := fun h => by
    have hzero : y.toNat * 2 ^ w = 0 := by rw [← hval, h]; rfl
    exact absurd hzero (by positivity)
  refine ⟨hne, ?_⟩
  rw [lzc_eq _ hne, hval, log2_mul_two_pow h0]
  omega

/-- The test of a halving step: the top `w` bits are all 0. -/
theorem ushiftRight_eq_zero_iff {y : Word} (hy : y ≠ 0#32) {w : Nat} (hw : w ≤ 31) : y >>> (32 - w) = 0#32 ↔ w ≤ lzc y := by
  have h0 := toNat_ne_zero hy
  have hlog := log2_lt_of_lt h0 y.isLt
  rw [← BitVec.toNat_inj, BitVec.toNat_ushiftRight, Nat.shiftRight_eq_div_pow, lzc_eq y hy]
  change y.toNat / 2 ^ (32 - w) = 0 ↔ _
  rw [Nat.div_eq_zero_iff_lt (by positivity), ← Nat.log2_lt h0]
  omega

/-- One halving step keeps the count found so far plus the count still to find, and leaves less than `w` to find (R106). -/
theorem lzcHalve_spec {w : Nat} {p : Nat × Word} (hp : p.2 ≠ 0#32) (hw : w ≤ 31) (hlt : lzc p.2 < 2 * w) :
    (lzcHalve w p).2 ≠ 0#32 ∧ (lzcHalve w p).1 + lzc (lzcHalve w p).2 = p.1 + lzc p.2 ∧ lzc (lzcHalve w p).2 < w := by
  by_cases hle : w ≤ lzc p.2
  · obtain ⟨hne, hsum⟩ := lzc_shiftLeft hp hle
    rw [lzcHalve, if_pos ((ushiftRight_eq_zero_iff hp hw).2 hle)]
    exact ⟨hne, by dsimp only; omega, by dsimp only; omega⟩
  · rw [lzcHalve, if_neg (mt (ushiftRight_eq_zero_iff hp hw).1 hle)]
    exact ⟨hp, rfl, Nat.not_le.1 hle⟩

/-- R106: five steps, each halving what is left to find, leave nothing. -/
theorem lzcBinarySearch_eq {x : Word} (hx : x ≠ 0#32) : lzcBinarySearch x = lzc x := by
  have hlt : lzc x < 2 * 16 := by rw [lzc_eq x hx]; omega
  obtain ⟨h16, sum16, left16⟩ := lzcHalve_spec (w := 16) (p := (0, x)) hx (by omega) hlt
  obtain ⟨h8, sum8, left8⟩ := lzcHalve_spec (w := 8) h16 (by omega) left16
  obtain ⟨h4, sum4, left4⟩ := lzcHalve_spec (w := 4) h8 (by omega) left8
  obtain ⟨h2, sum2, left2⟩ := lzcHalve_spec (w := 2) h4 (by omega) left4
  obtain ⟨-, sum1, left1⟩ := lzcHalve_spec (w := 1) h2 (by omega) left2
  have hstart : ((0, x) : Nat × Word).1 + lzc ((0, x) : Nat × Word).2 = lzc x := Nat.zero_add _
  rw [lzcBinarySearch]
  omega

end Sys2Proof.Machine

/-! ### The statement -/

section
open Sys2Proof Sys2Proof.Machine

/-- Settles O34, from the invariant of the halving steps. -/
theorem binarySearchCountAgrees : Obligations.BinarySearchCountAgrees := fun _ hx => lzcBinarySearch_eq hx

end
end

section
/-! PROOFS. The finite nonzero patterns: what their fields can be, the fields that `pack` restores, and the statement O26
(41_bf16_codec.md R134) that follows. -/

namespace Sys2Proof.Machine

variable {v x y : Bf16}

/-- R134: a pattern is packed again from its fields. -/
theorem pack_fields (v : Bf16) : pack (sign v) (exponent v) (mantissa v) = v := by
  have he := exponent_lt v
  have hm := mantissa_lt v
  refine eq_of_fields (sign_pack _ _ _) ?_ ?_
  · rw [exponent_pack]
    omega
  · rw [mantissa_pack, Nat.mod_eq_of_lt hm]

/-- R134: `pack` keeps the low 7 bits of its mantissa. -/
theorem pack_congr (s : BitVec 1) (e : Int) {m n : Nat} (h : m % 128 = n % 128) : pack s e m = pack s e n := by
  apply BitVec.eq_of_toNat_eq
  rw [pack_toNat, pack_toNat, h]

/-- R139: subnormal or normal. -/
theorem finiteNonzero_iff (v : Bf16) : finiteNonzero v = true ↔ exponent v ≠ 255 ∧ (exponent v = 0 → mantissa v ≠ 0) := by
  rw [finiteNonzero, Bool.or_eq_true, isSubnormal_iff, isNormal_iff]
  omega

theorem isNan_eq_false_of_finite (h : finiteNonzero v = true) : isNan v = false := by
  obtain ⟨he, -⟩ := (finiteNonzero_iff v).1 h
  exact Bool.eq_false_iff.2 fun hnan => he ((isNan_iff v).1 hnan).1

theorem isInf_eq_false_of_finite (h : finiteNonzero v = true) : isInf v = false := by
  obtain ⟨he, -⟩ := (finiteNonzero_iff v).1 h
  exact Bool.eq_false_iff.2 fun hinf => he ((isInf_iff v).1 hinf).1

theorem isZero_eq_false_of_finite (h : finiteNonzero v = true) : isZero v = false := by
  obtain ⟨-, hm⟩ := (finiteNonzero_iff v).1 h
  refine Bool.eq_false_iff.2 fun hzero => ?_
  obtain ⟨he, hm'⟩ := (isZero_iff v).1 hzero
  exact hm he hm'

theorem finiteNonzero_of_isNormal (h : isNormal v = true) : finiteNonzero v = true := by
  rw [finiteNonzero, h, Bool.or_true]

/-- R155: a finite nonzero value has a working mantissa. -/
theorem restoredMantissa_pos (h : finiteNonzero v = true) : 0 < restoredMantissa v := by
  obtain ⟨-, hm⟩ := (finiteNonzero_iff v).1 h
  rw [restoredMantissa_eq]
  split <;> omega

end Sys2Proof.Machine

/-! ### The statement -/

section
open Sys2Proof Sys2Proof.Machine

/-- Settles O26: the three fields are those of the pattern. -/
theorem packRestoresPattern : Obligations.PackRestoresPattern := pack_fields

end
end

section
/-! PROOFS. BF16_ADD and BF16_SUB on finite nonzero operands: the early return, the aligned sum and difference in closed form, which
patterns a sum can be, and the statements O38 to O42 and O44 (42_bf16_add.md R155 to R163) that follow. -/

namespace Sys2Proof.Machine

section sums
variable {c x y : Bf16}

/-! ### The kinds of operand pairs -/

/-- Past the tests of R152 to R154 both operands are finite and nonzero. -/
theorem finiteNonzero_of_not_special {v : Bf16} (hnan : isNan v = false) (hinf : isInf v = false) (hzero : isZero v = false) :
    finiteNonzero v = true := by
  by_contra h
  have hcategory := isNan_or_isInf_or_isZero_of_not_finiteNonzero (Bool.eq_false_iff.2 h)
  simp [hnan, hinf, hzero] at hcategory

/-- The four kinds of operand pairs, in the order of the tests of R152 to R154. -/
theorem operand_pair_cases (x y : Bf16) :
    (isNan x = true ∨ isNan y = true) ∨
    (isNan x = false ∧ isNan y = false ∧ (isInf x = true ∨ isInf y = true)) ∨
    (isZero x = true ∨ isZero y = true) ∨
    (finiteNonzero x = true ∧ finiteNonzero y = true) := by
  by_cases hnan : isNan x = true ∨ isNan y = true
  · exact .inl hnan
  · by_cases hinf : isInf x = true ∨ isInf y = true
    · simp only [not_or, Bool.not_eq_true] at hnan
      exact .inr (.inl ⟨hnan.1, hnan.2, hinf⟩)
    · by_cases hzero : isZero x = true ∨ isZero y = true
      · exact .inr (.inr (.inl hzero))
      · simp only [not_or, Bool.not_eq_true] at hnan hinf hzero
        exact .inr (.inr (.inr ⟨finiteNonzero_of_not_special hnan.1 hinf.1 hzero.1,
          finiteNonzero_of_not_special hnan.2 hinf.2 hzero.2⟩))

/-! ### Alignment -/

/-- R152 to R154: no test for a special value or a zero holds. -/
theorem bf16Add_of_finite (hx : finiteNonzero x = true) (hy : finiteNonzero y = true) : bf16Add c x y = addFinite c x y := by
  simp only [bf16Add, isNan_eq_false_of_finite hx, isNan_eq_false_of_finite hy, isInf_eq_false_of_finite hx,
    isInf_eq_false_of_finite hy, isZero_eq_false_of_finite hx, isZero_eq_false_of_finite hy, Bool.false_eq_true, if_false]

/-- R156: the smaller operand vanishes. -/
theorem addFinite_far_left (h : exponent y + 8 < exponent x) : addFinite c x y = x := by
  simp only [addFinite]
  rw [if_pos (by omega), if_pos (by omega)]

theorem addFinite_far_right (h : exponent x + 8 < exponent y) : addFinite c x y = y := by
  simp only [addFinite]
  rw [if_neg (by omega), if_pos (by omega), if_pos (by omega)]

@[simp] theorem alignedMantissa_exponent (v : Bf16) : alignedMantissa v (exponent v) = restoredMantissa v := by
  simp [alignedMantissa]

/-- R156: a right shift by the difference of the exponent fields. -/
theorem restoredMantissa_shiftRight (v : Bf16) (e : Nat) :
    restoredMantissa v >>> ((e : Int) - exponent v).toNat = alignedMantissa v e := by
  rw [Nat.shiftRight_eq_div_pow, alignedMantissa, Int.toNat_sub]

theorem alignedMantissa_lt (v : Bf16) (e : Nat) : alignedMantissa v e < 256 :=
  lt_of_le_of_lt (Nat.div_le_self _ _) (restoredMantissa_lt v)

/-- R156: where the exponent fields differ by at most 8, both mantissas are brought to the larger one. -/
theorem addFinite_near (hx : exponent x ≤ exponent y + 8) (hy : exponent y ≤ exponent x + 8) :
    addFinite c x y = addAligned c (sign x) (sign y) (alignedMantissa x (max (exponent x) (exponent y)))
      (alignedMantissa y (max (exponent x) (exponent y))) (max (exponent x) (exponent y) : Nat) := by
  simp only [addFinite]
  rcases lt_trichotomy (exponent x) (exponent y) with hlt | heq | hgt
  · rw [if_neg (by omega), if_pos (by omega), if_neg (by omega), Nat.max_eq_right hlt.le, neg_sub,
      restoredMantissa_shiftRight, alignedMantissa_exponent]
  · rw [if_neg (by omega), if_neg (by omega), ← heq, Nat.max_self, alignedMantissa_exponent, heq, alignedMantissa_exponent]
  · rw [if_pos (by omega), if_neg (by omega), Nat.max_eq_left hgt.le, restoredMantissa_shiftRight, alignedMantissa_exponent]

/-! ### The sum and the difference -/

/-- R157, R159: the closed form of step 5. -/
theorem addFinite_same_sign (hx : exponent x ≤ exponent y + 8) (hy : exponent y ≤ exponent x + 8) (hs : sign x = sign y) :
    addFinite c x y = sumSameSign c x y := by
  rw [addFinite_near hx hy, addAligned, if_pos hs, addSameSign, sumSameSign]
  by_cases hm : alignedMantissa x (max (exponent x) (exponent y)) + alignedMantissa y (max (exponent x) (exponent y)) < 256
  · rw [if_neg (by omega), if_pos hm]
  · rw [if_pos (by omega), if_neg hm, Nat.shiftRight_one]
    exact if_congr (by omega) rfl rfl

/-- R158: the difference of working mantissas has no bit 8, so only the left normalisation is taken. -/
theorem addDifference_eq {m : Nat} (hm : m < 256) (s : BitVec 1) (e : Nat) :
    addDifference c s m e =
      if m = 0 ∨ (m < 128 ∧ e ≤ leadingShift m) then 0x0000#16
      else pack s ((e : Int) - leadingShift m) (m * 2 ^ leadingShift m) := by
  by_cases h0 : m = 0
  · rw [addDifference, if_pos h0, if_pos (.inl h0)]
  · have hk : leadingShift m ≤ 7 := Nat.sub_le 7 _
    rw [addDifference, if_neg h0, if_neg (by omega), packNormalised, normaliseLeft_done h0 hm hk]
    by_cases hzero : m < 128 ∧ e ≤ leadingShift m
    · rw [if_pos (by omega), if_pos (.inr hzero)]
    · rw [if_neg (by omega), if_neg (by omega)]

/-- R158, R159: the closed form of step 6. -/
theorem addFinite_opposite_sign (hx : exponent x ≤ exponent y + 8) (hy : exponent y ≤ exponent x + 8) (hs : sign x ≠ sign y) :
    addFinite c x y = sumOppositeSign x y := by
  have hmx := alignedMantissa_lt x (max (exponent x) (exponent y))
  have hmy := alignedMantissa_lt y (max (exponent x) (exponent y))
  rw [addFinite_near hx hy, addAligned, if_neg hs, sumOppositeSign]
  by_cases hle : alignedMantissa y (max (exponent x) (exponent y)) ≤ alignedMantissa x (max (exponent x) (exponent y))
  · simp only [if_pos hle, addDifference_eq (lt_of_le_of_lt (Nat.sub_le _ _) hmx)]
  · simp only [if_neg hle, addDifference_eq (lt_of_le_of_lt (Nat.sub_le _ _) hmy)]

/-! ### Commutativity -/

/-- R163: a tie of the mantissas cancels, whichever sign it would take. -/
theorem addAligned_comm (sx sy : BitVec 1) (mx my : Nat) (e : Int) : addAligned c sx sy mx my e = addAligned c sy sx my mx e := by
  by_cases hs : sx = sy
  · subst hs
    rw [addAligned, addAligned, if_pos rfl, if_pos rfl, Nat.add_comm]
  · rw [addAligned, addAligned, if_neg hs, if_neg (Ne.symm hs)]
    rcases lt_trichotomy mx my with hlt | rfl | hgt
    · rw [if_neg (by omega), if_pos (by omega)]
    · simp only [Nat.sub_self, addDifference, if_true, ite_self]
    · rw [if_pos (by omega), if_neg (by omega)]

theorem addFinite_comm : addFinite c x y = addFinite c y x := by
  by_cases hx : exponent y + 8 < exponent x
  · rw [addFinite_far_left hx, addFinite_far_right hx]
  · by_cases hy : exponent x + 8 < exponent y
    · rw [addFinite_far_right hy, addFinite_far_left hy]
    · rw [addFinite_near (by omega) (by omega), addFinite_near (by omega) (by omega), addAligned_comm, Nat.max_comm]

/-- Two infinities of one sign are one pattern. -/
theorem eq_of_isInf_of_sign (hx : isInf x = true) (hy : isInf y = true) (hs : sign x = sign y) : x = y := by
  obtain ⟨hex, hmx⟩ := (isInf_iff x).1 hx
  obtain ⟨hey, hmy⟩ := (isInf_iff y).1 hy
  exact eq_of_fields hs (hex.trans hey.symm) (hmx.trans hmy.symm)

/-- R153, both ways around. -/
theorem bf16Add_comm_of_isInf (hx : isNan x = false) (hy : isNan y = false) (h : isInf x = true ∨ isInf y = true) :
    bf16Add c x y = bf16Add c y x := by
  rw [bf16Add_of_isInf hx hy h, bf16Add_of_isInf hy hx h.symm]
  by_cases hix : isInf x = true
  · by_cases hiy : isInf y = true
    · by_cases hs : sign x = sign y
      · rw [eq_of_isInf_of_sign hix hiy hs]
      · rw [if_pos ⟨hix, hiy, hs⟩, if_pos ⟨hiy, hix, Ne.symm hs⟩]
    · simp only [hix, hiy, if_true, false_and, and_false, if_false, Bool.false_eq_true]
  · have hiy := h.resolve_left hix
    simp only [hix, hiy, if_true, false_and, and_false, if_false, Bool.false_eq_true]

/-- R154, both ways around: a zero gives the other operand. -/
theorem bf16Add_comm_of_isZero (h : isZero x = true ∨ isZero y = true) (hne : ¬ (isZero x = true ∧ isZero y = true ∧ x ≠ y)) :
    bf16Add c x y = bf16Add c y x := by
  by_cases hx : isZero x = true
  · by_cases hy : isZero y = true
    · rw [not_not.1 fun hxy => hne ⟨hx, hy, hxy⟩]
    · rw [bf16Add_of_isZero_left hx, bf16Add_of_isZero_right (Bool.eq_false_iff.2 hy) hx]
  · have hy := h.resolve_left hx
    rw [bf16Add_of_isZero_right (Bool.eq_false_iff.2 hx) hy, bf16Add_of_isZero_left hy]

/-- A NaN operand comes back, the first one first (R152, R182): exchanging the operands matters for two different NaNs only. -/
theorem comm_of_propagates_isNan {f : Bf16 → Bf16 → Bf16} (hleft : ∀ {x y}, isNan x = true → f x y = x)
    (hright : ∀ {x y}, isNan x = false → isNan y = true → f x y = y) (h : isNan x = true ∨ isNan y = true)
    (hne : ¬ (isNan x = true ∧ isNan y = true ∧ x ≠ y)) : f x y = f y x := by
  by_cases hx : isNan x = true
  · by_cases hy : isNan y = true
    · rw [not_not.1 fun hxy => hne ⟨hx, hy, hxy⟩]
    · rw [hleft hx, hright (Bool.eq_false_iff.2 hy) hx]
  · have hy := h.resolve_left hx
    rw [hright (Bool.eq_false_iff.2 hx) hy, hleft hy]

/-- R163, first property. -/
theorem bf16Add_comm (hnan : ¬ (isNan x = true ∧ isNan y = true ∧ x ≠ y))
    (hzero : ¬ (isZero x = true ∧ isZero y = true ∧ x ≠ y)) : bf16Add c x y = bf16Add c y x := by
  rcases operand_pair_cases x y with h | ⟨hx, hy, h⟩ | h | ⟨hx, hy⟩
  · exact comm_of_propagates_isNan bf16Add_of_isNan_left bf16Add_of_isNan_right h hnan
  · exact bf16Add_comm_of_isInf hx hy h
  · exact bf16Add_comm_of_isZero h hzero
  · rw [bf16Add_of_finite hx hy, bf16Add_of_finite hy hx, addFinite_comm]

/-! ### Which patterns a sum can be -/

/-- R157: below the overflow bound the exponent stays below 255. -/
theorem addSameSign_eq_or_exponent_ne {e : Nat} (he : e < 255) (s : BitVec 1) (m : Nat) :
    addSameSign c s m e = c ∨ exponent (addSameSign c s m e) ≠ 255 := by
  rw [addSameSign]
  split_ifs with hgrown hover
  · exact .inl rfl
  · right
    rw [exponent_pack]
    omega
  · right
    rw [exponent_pack]
    omega

/-- R158: the left normalisation only lowers the exponent, and stops above 0. -/
theorem exponent_addDifference_ne {m e : Nat} (hm : m < 256) (he : e < 255) (s : BitVec 1) :
    exponent (addDifference c s m e) ≠ 255 := by
  rw [addDifference_eq hm]
  split_ifs with hzero
  · decide
  · have hk : 128 ≤ m → leadingShift m = 0 := fun hge => Nat.sub_eq_zero_of_le (le_log2_of_le (k := 7) (by omega) hge)
    rw [exponent_pack]
    omega

theorem max_exponent_lt (hx : finiteNonzero x = true) (hy : finiteNonzero y = true) : max (exponent x) (exponent y) < 255 := by
  obtain ⟨hex, -⟩ := (finiteNonzero_iff x).1 hx
  obtain ⟨hey, -⟩ := (finiteNonzero_iff y).1 hy
  have hltx := exponent_lt x
  have hlty := exponent_lt y
  omega

/-- R163: a sum past the early return is `CANON_NAN` or has an exponent field below 255. -/
theorem addAligned_eq_or_exponent_ne {mx my e : Nat} (hmx : mx < 256) (hmy : my < 256) (he : e < 255) (sx sy : BitVec 1) :
    addAligned c sx sy mx my e = c ∨ exponent (addAligned c sx sy mx my e) ≠ 255 := by
  rw [addAligned]
  split_ifs
  · exact addSameSign_eq_or_exponent_ne he sx (mx + my)
  · exact .inr (exponent_addDifference_ne (by omega) he sx)
  · exact .inr (exponent_addDifference_ne (by omega) he sy)

/-- R163, last property: what is neither an operand nor `CANON_NAN` is finite. -/
theorem bf16Add_eq_or_exponent_ne (c x y : Bf16) :
    bf16Add c x y = x ∨ bf16Add c x y = y ∨ bf16Add c x y = c ∨ exponent (bf16Add c x y) ≠ 255 := by
  rcases operand_pair_cases x y with h | ⟨hx, hy, h⟩ | h | ⟨hx, hy⟩
  · by_cases hx : isNan x = true
    · exact .inl (bf16Add_of_isNan_left hx)
    · exact .inr (.inl (bf16Add_of_isNan_right (Bool.eq_false_iff.2 hx) (h.resolve_left hx)))
  · rw [bf16Add_of_isInf hx hy h]
    split_ifs
    · exact .inr (.inr (.inl rfl))
    · exact .inl rfl
    · exact .inr (.inl rfl)
  · by_cases hx : isZero x = true
    · exact .inr (.inl (bf16Add_of_isZero_left hx))
    · exact .inl (bf16Add_of_isZero_right (Bool.eq_false_iff.2 hx) (h.resolve_left hx))
  · rw [bf16Add_of_finite hx hy]
    by_cases hfx : exponent y + 8 < exponent x
    · exact .inl (addFinite_far_left hfx)
    · by_cases hfy : exponent x + 8 < exponent y
      · exact .inr (.inl (addFinite_far_right hfy))
      · rw [addFinite_near (by omega) (by omega)]
        exact .inr (.inr (addAligned_eq_or_exponent_ne (alignedMantissa_lt x _) (alignedMantissa_lt y _)
          (max_exponent_lt hx hy) _ _))

/-! ### One pattern as both operands -/

/-- R160: the sign bit of the flipped pattern is the other one. -/
theorem sign_flipSign_ne (v : Bf16) : sign v ≠ sign (v ^^^ 0x8000#16) := by
  intro h
  have hbit : ∀ t : BitVec 1, t ≠ t ^^^ 1#1 := by decide
  rw [sign, sign, BitVec.extractLsb'_xor] at h
  exact hbit _ h

theorem finiteNonzero_flipSign (v : Bf16) : finiteNonzero (v ^^^ 0x8000#16) = finiteNonzero v := by
  simp only [finiteNonzero, isSubnormal, isNormal, exponent_flipSign, mantissa_flipSign]

/-- R162: the aligned mantissas cancel. -/
theorem bf16Add_flipSign_self (hx : finiteNonzero x = true) : bf16Add c x (x ^^^ 0x8000#16) = 0x0000#16 := by
  rw [bf16Add_of_finite hx ((finiteNonzero_flipSign x).trans hx),
    addFinite_opposite_sign (by rw [exponent_flipSign]; omega) (by rw [exponent_flipSign]; omega) (sign_flipSign_ne x)]
  simp [sumOppositeSign, alignedMantissa, restoredMantissa, exponent_flipSign, mantissa_flipSign]

/-- R161: the sum of a normal value with itself grows one bit. -/
theorem bf16Add_self_of_isNormal (hx : isNormal x = true) :
    bf16Add c x x = if exponent x ≤ 253 then pack (sign x) (exponent x + 1) (mantissa x) else c := by
  have hfinite := finiteNonzero_of_isNormal hx
  obtain ⟨h0, -⟩ := (isNormal_iff x).1 hx
  have hm : restoredMantissa x = 128 + mantissa x := by rw [restoredMantissa_eq, if_neg h0]
  have hhalf : (128 + mantissa x + (128 + mantissa x)) / 2 % 128 = mantissa x % 128 := by omega
  rw [bf16Add_of_finite hfinite hfinite, addFinite_same_sign (by omega) (by omega) rfl]
  simp only [sumSameSign, Nat.max_self, alignedMantissa_exponent, hm, pack_congr _ _ hhalf]
  rw [if_neg (by omega)]
  by_cases he : exponent x ≤ 253
  · rw [if_pos he, if_neg (by omega)]
  · rw [if_neg he, if_pos (by omega)]

end sums

end Sys2Proof.Machine

/-! ### The statements -/

section
open Sys2Proof Sys2Proof.Machine

/-- Settles O38: the early return of step 4, on either side. -/
theorem addFarApartReturnsLarger : Obligations.AddFarApartReturnsLarger := by
  intro a b s ha hb h
  rw [exec_bf16Add, bf16Add_of_finite ha hb]
  rcases h with hleft | hright
  · rw [addFinite_far_left hleft, if_pos (by omega)]
  · rw [addFinite_far_right hright, if_neg (by omega)]

/-- Settles O39: step 5 in closed form. -/
theorem addSameSignSum : Obligations.AddSameSignSum := by
  intro a b s ha hb hea heb hs
  rw [exec_bf16Add, bf16Add_of_finite ha hb, addFinite_same_sign hea heb hs]

/-- Settles O40: step 6 in closed form. -/
theorem addOppositeSignDifference : Obligations.AddOppositeSignDifference := by
  intro a b s ha hb hea heb hs
  rw [exec_bf16Add, bf16Add_of_finite ha hb, addFinite_opposite_sign hea heb hs]

/-- Settles O41: kind by kind of operand pairs. -/
theorem addCommutes : Obligations.AddCommutes := by
  intro a b s hnan hzero
  rw [exec_bf16Add, exec_bf16Add, bf16Add_comm hnan hzero]

/-- Settles O42: a sum with exponent field 255 is an operand or `CANON_NAN`, and the latter is no infinity. -/
theorem addCreatesNoInfinity : Obligations.AddCreatesNoInfinity := by
  intro a b s hc
  have hcases := bf16Add_eq_or_exponent_ne s.canonNan (bf16Operand a) (bf16Operand b)
  refine ⟨_, exec_bf16Add a b s, fun hnan => ?_, fun hinf => ?_⟩
  · rcases hcases with hv | hv | hv | hv
    · exact .inl hv
    · exact .inr (.inl hv)
    · exact .inr (.inr hv)
    · exact absurd ((isNan_iff _).1 hnan).1 hv
  · rcases hcases with hv | hv | hv | hv
    · exact .inl hv
    · exact .inr hv
    · rw [hv] at hinf
      exact absurd (hc.symm.trans (isNan_eq_false_of_isInf hinf)) (by decide)
    · exact absurd ((isInf_iff _).1 hinf).1 hv

/-- Settles O44: the flipped operand cancels; the doubled mantissa loses the bit it gained. -/
theorem subSelfIsZeroAddSelfDoubles : Obligations.SubSelfIsZeroAddSelfDoubles := by
  intro a b s hab
  refine ⟨fun hfinite => ?_, fun hnormal => ?_⟩
  · rw [exec_bf16Sub, hab, bf16Add_flipSign_self hfinite]
    rfl
  · rw [exec_bf16Add, hab, bf16Add_self_of_isNormal hnormal]

end
end

section
/-! PROOFS. BF16_MUL on finite nonzero operands: the normalised operands, the product in closed form, 1.0 as a factor, and the statements
O46, O47 and O48 (43_bf16_mul.md R183 to R187, R189) that follow. -/

namespace Sys2Proof.Machine

section products
variable {c v x y : Bf16}

/-! ### Operand normalisation -/

/-- R183: the leading 1 of a nonzero mantissa comes to bit 7. -/
theorem mul_two_pow_leadingShift {m : Nat} (h0 : m ≠ 0) (hm : m < 256) :
    128 ≤ m * 2 ^ leadingShift m ∧ m * 2 ^ leadingShift m < 256 := by
  have hlog : Nat.log2 m < 8 := log2_lt_of_lt h0 hm
  have htop : Nat.log2 (m * 2 ^ leadingShift m) = 7 := by
    rw [log2_mul_two_pow h0, leadingShift]
    omega
  exact (Nat.log2_eq_iff (by positivity)).1 htop

theorem mulMantissa_bounds (h : finiteNonzero v = true) : 128 ≤ mulMantissa v ∧ mulMantissa v < 256 := by
  obtain ⟨-, hm⟩ := (finiteNonzero_iff v).1 h
  have hlt := mantissa_lt v
  rw [mulMantissa]
  split
  case isTrue he => exact mul_two_pow_leadingShift (hm he) (by omega)
  case isFalse => omega

/-- R183: the mantissa with its leading 1, and the exponent whole with its adjustment. -/
theorem mulOperand_eq (h : finiteNonzero v = true) :
    (mulOperand v).man = mulMantissa v ∧ (mulOperand v).exp + (mulOperand v).adj = mulExponent v := by
  obtain ⟨-, hm⟩ := (finiteNonzero_iff v).1 h
  have hlt := mantissa_lt v
  by_cases he : exponent v = 0
  · have hk : leadingShift (mantissa v) ≤ 7 := Nat.sub_le 7 _
    rw [mulOperand, if_pos he, shiftUntilLeading_done (hm he) (by omega) hk, mulMantissa, mulExponent, if_pos he, if_pos he]
    exact ⟨rfl, by dsimp only; omega⟩
  · rw [mulOperand, if_neg he, mulMantissa, mulExponent, if_neg he, if_neg he]
    exact ⟨mantissa_or_implicit v, Int.add_zero _⟩

/-! ### The product -/

/-- A mask of 7 bits after a right shift (R185, R207). -/
theorem shiftRight_and_mask (p k : Nat) : (p >>> k) &&& 0x7F = p / 2 ^ k % 128 := by
  rw [Nat.shiftRight_eq_div_pow]
  exact Nat.and_two_pow_sub_one_eq_mod _ 7

/-- R186, R187: the ranges of the exponent as one ordered choice. -/
theorem mulRange_eq (rs : BitVec 1) (rm : Nat) (re : Int) :
    mulRange rs rm re =
      if 255 ≤ re then infinity rs
      else if re < -6 then signedZero rs
      else if re ≤ 0 then pack rs 0 (rm / 2 ^ (1 - re).toNat)
      else pack rs re rm := by
  rw [mulRange, Nat.shiftRight_eq_div_pow]
  by_cases hlow : re < -6
  · rw [if_pos hlow, if_pos hlow, if_pos (by omega : re ≤ 0)]
  · rw [if_neg hlow, if_neg hlow]

/-- R184: the 32-bit multiply is exact on 8-bit mantissas. -/
theorem imul_ofNat_toNat {m n : Nat} (hm : m < 256) (hn : n < 256) :
    (imul (BitVec.ofNat 32 m) (BitVec.ofNat 32 n)).toNat = m * n := by
  rw [imul_toNat, BitVec.toNat_ofNat, BitVec.toNat_ofNat, Nat.mod_eq_of_lt (by omega), Nat.mod_eq_of_lt (by omega)]

/-- R184 to R187: the closed form of the product. -/
theorem mulFinite_eq (hx : finiteNonzero x = true) (hy : finiteNonzero y = true) :
    mulFinite (sign x ^^^ sign y) x y = productFinite x y := by
  obtain ⟨hmx, hex⟩ := mulOperand_eq hx
  obtain ⟨hmy, hey⟩ := mulOperand_eq hy
  have hp := imul_ofNat_toNat (mulMantissa_bounds hx).2 (mulMantissa_bounds hy).2
  have hre : (mulOperand x).exp + (mulOperand y).exp - 127 + ((mulOperand x).adj + (mulOperand y).adj) =
      mulExponent x + mulExponent y - 127 := by omega
  simp only [mulFinite, productFinite, hmx, hmy, hp, hre, shiftRight_and_mask, mulRange_eq]
  by_cases htop : 2 ^ 15 ≤ mulMantissa x * mulMantissa y
  · simp only [if_pos htop, if_pos (show 0x8000 ≤ mulMantissa x * mulMantissa y from htop), Nat.cast_one]
  · simp only [if_neg htop, if_neg (show ¬ 0x8000 ≤ mulMantissa x * mulMantissa y from htop), Nat.cast_zero, Int.add_zero]

/-- R182: no test for a special value holds. -/
theorem bf16Mul_of_finite (hx : finiteNonzero x = true) (hy : finiteNonzero y = true) : bf16Mul c x y = productFinite x y := by
  simp only [bf16Mul, isNan_eq_false_of_finite hx, isNan_eq_false_of_finite hy, isInf_eq_false_of_finite hx,
    isInf_eq_false_of_finite hy, isZero_eq_false_of_finite hx, isZero_eq_false_of_finite hy, Bool.or_self, Bool.false_eq_true,
    if_false, mulFinite_eq hx hy]

/-! ### 1.0 as a factor -/

/-- R189: the product with 1.0 does not reach bit 15, and its exponent is the operand's. -/
theorem productFinite_one (hx : isNormal x = true) : productFinite x 0x3F80#16 = x := by
  obtain ⟨h0, h255⟩ := (isNormal_iff x).1 hx
  have hm := mantissa_lt x
  have he := exponent_lt x
  have hone : mulMantissa 0x3F80#16 = 128 ∧ mulExponent 0x3F80#16 = 127 ∧ sign 0x3F80#16 = 0#1 := by decide
  obtain ⟨honeM, honeE, honeS⟩ := hone
  have hxM : mulMantissa x = 128 + mantissa x := if_neg h0
  have hxE : mulExponent x = exponent x := if_neg h0
  have hre : (exponent x : Int) + 127 - 127 = exponent x := by omega
  have hrm : (128 + mantissa x) * 128 / 2 ^ 7 % 128 = mantissa x := by omega
  simp only [productFinite, honeM, honeE, honeS, hxM, hxE, BitVec.xor_zero]
  rw [if_neg (by omega : ¬ 2 ^ 15 ≤ (128 + mantissa x) * 128), Nat.cast_zero, Int.add_zero, hre, Nat.add_zero, hrm,
    if_neg (by omega), if_neg (by omega), if_neg (by omega), pack_fields]

/-! ### Commutativity -/

theorem productFinite_comm (x y : Bf16) : productFinite x y = productFinite y x := by
  simp only [productFinite, BitVec.xor_comm (sign y) (sign x), Nat.mul_comm (mulMantissa y) (mulMantissa x),
    Int.add_comm (mulExponent y) (mulExponent x)]

/-- R182: past the tests for NaN, no test tells the operands apart. -/
theorem bf16Mul_comm_of_special (hx : isNan x = false) (hy : isNan y = false)
    (h : finiteNonzero x = false ∨ finiteNonzero y = false) : bf16Mul c x y = bf16Mul c y x := by
  rw [bf16Mul_of_special h, bf16Mul_of_special h.symm, BitVec.xor_comm (sign y)]
  simp only [hx, hy, Bool.false_eq_true, if_false]
  exact if_congr (by tauto) rfl (if_congr or_comm rfl rfl)

/-- R189, second property. -/
theorem bf16Mul_comm (hnan : ¬ (isNan x = true ∧ isNan y = true ∧ x ≠ y)) : bf16Mul c x y = bf16Mul c y x := by
  by_cases h : isNan x = true ∨ isNan y = true
  · exact comm_of_propagates_isNan bf16Mul_of_isNan_left bf16Mul_of_isNan_right h hnan
  · simp only [not_or, Bool.not_eq_true] at h
    obtain ⟨hx, hy⟩ := h
    by_cases hfinite : finiteNonzero x = true ∧ finiteNonzero y = true
    · rw [bf16Mul_of_finite hfinite.1 hfinite.2, bf16Mul_of_finite hfinite.2 hfinite.1, productFinite_comm]
    · rw [not_and_or, Bool.not_eq_true, Bool.not_eq_true] at hfinite
      exact bf16Mul_comm_of_special hx hy hfinite

/-! ### Sign -/

theorem sign_mulRange (rs : BitVec 1) (rm : Nat) (re : Int) : sign (mulRange rs rm re) = rs := by
  rw [mulRange]
  split_ifs
  · exact sign_infinity rs
  · exact sign_signedZero rs
  · exact sign_pack _ _ _
  · exact sign_pack _ _ _

theorem sign_mulFinite (rs : BitVec 1) (x y : Bf16) : sign (mulFinite rs x y) = rs := by
  simp only [mulFinite]
  split
  · exact sign_mulRange _ _ _
  · exact sign_mulRange _ _ _

/-- R189: a product that is neither a NaN operand nor `CANON_NAN` has the sign of R181. -/
theorem sign_bf16Mul (hc : isNan c = true) (hv : isNan (bf16Mul c x y) = false) : sign (bf16Mul c x y) = sign x ^^^ sign y := by
  by_cases hfinite : finiteNonzero x = true ∧ finiteNonzero y = true
  · rw [bf16Mul_of_finite hfinite.1 hfinite.2, ← mulFinite_eq hfinite.1 hfinite.2, sign_mulFinite]
  · rw [not_and_or, Bool.not_eq_true, Bool.not_eq_true] at hfinite
    rw [bf16Mul_of_special hfinite] at hv ⊢
    split_ifs at hv ⊢ with hx hy
    · simp [hx] at hv
    · simp [hy] at hv
    · simp [hc] at hv
    · exact sign_infinity _
    · exact sign_signedZero _

end products

end Sys2Proof.Machine

/-! ### The statements -/

section
open Sys2Proof Sys2Proof.Machine

/-- Settles O46: the product in closed form. -/
theorem mulFiniteProduct : Obligations.MulFiniteProduct := by
  intro a b s ha hb
  rw [exec_bf16Mul, bf16Mul_of_finite ha hb]

/-- Settles O47: 1.0 is finite and nonzero, and the product with it is the operand. -/
theorem mulByOneIsIdentity : Obligations.MulByOneIsIdentity := by
  intro a b s ha hb
  rw [exec_bf16Mul, hb, bf16Mul_of_finite (finiteNonzero_of_isNormal ha) (by decide), productFinite_one ha]

/-- Settles O48: no step but the tests for NaN tells the operands apart. -/
theorem mulCommutes : Obligations.MulCommutes := by
  intro a b s h
  rw [exec_bf16Mul, exec_bf16Mul, bf16Mul_comm h]

end
end

section
/-! PROOFS. BF16_DIV on finite nonzero operands: the bit-serial quotient as a division, the quotient in closed form, its category and its
sign, and the statements O50 to O54 (44_bf16_div.md R204 to R210; 43_bf16_mul.md R189) that follow. -/

namespace Sys2Proof.Machine

/-! ### The bit-serial quotient -/

/-- R205: `k` iterations append to `q` the quotient, or all ones where it does not fit `k` bits. -/
theorem quotientLoop_eq {mb : Nat} (hmb : 0 < mb) (k n q : Nat) :
    quotientLoop mb k n q = q * 2 ^ k + min (n / mb) (2 ^ k - 1) := by
  induction k generalizing n q with
  | zero => simp [quotientLoop]
  | succ k ih =>
    have hpow : 2 ^ (k + 1) = 2 * 2 ^ k := by rw [pow_succ, Nat.mul_comm]
    have hpos : 0 < 2 ^ k := by positivity
    have happend : (q <<< 1) ||| 1 = 2 * q + 1 := by
      rw [← Nat.shiftLeft_add_eq_or_of_lt (by omega), Nat.shiftLeft_eq, pow_one, Nat.mul_comm]
    simp only [quotientLoop, Nat.shiftLeft_eq mb k]
    split
    case isTrue hle =>
      have hge : 2 ^ k ≤ n / mb := (Nat.le_div_iff_mul_le hmb).2 (by rwa [Nat.mul_comm])
      have hquot : (n - mb * 2 ^ k) / mb = n / mb - 2 ^ k := Nat.sub_mul_div n mb (2 ^ k)
      have hq : (2 * q + 1) * 2 ^ k = q * (2 * 2 ^ k) + 2 ^ k := by ring
      rw [ih, happend, hquot, hpow, hq]
      omega
    case isFalse hlt =>
      have hfit : n / mb < 2 ^ k := (Nat.div_lt_iff_lt_mul hmb).2 (by rw [Nat.mul_comm]; omega)
      rw [ih, Nat.shiftLeft_eq, pow_one, hpow, Nat.mul_assoc]
      omega

/-- R205: 16 iterations. -/
theorem divQuotient_eq {mb : Nat} (hmb : 0 < mb) (ma : Nat) : divQuotient ma mb = min (ma * 2 ^ 15 / mb) 0xFFFF := by
  rw [divQuotient, quotientLoop_eq hmb, Nat.shiftLeft_eq, Nat.zero_mul, Nat.zero_add]
  rfl

/-- R205: the quotient leaves 16 bits where the dividend is at least twice the divisor. -/
theorem divQuotient_eq_ite {mb : Nat} (hmb : 0 < mb) (ma : Nat) :
    divQuotient ma mb = if ma < 2 * mb then ma * 2 ^ 15 / mb else 0xFFFF := by
  have hfit : ma * 2 ^ 15 / mb < 2 ^ 16 ↔ ma < 2 * mb := by
    rw [Nat.div_lt_iff_lt_mul hmb]
    omega
  rw [divQuotient_eq hmb]
  split <;> omega

theorem divQuotient_pos {ma mb : Nat} (hma : 0 < ma) (hmb : 0 < mb) (hlt : mb < 256) : 0 < divQuotient ma mb := by
  have hone : 0 < ma * 2 ^ 15 / mb := Nat.div_pos (by omega) hmb
  rw [divQuotient_eq hmb]
  omega

section quotients
variable {c x y : Bf16}

/-! ### The quotient -/

theorem divExponent_eq (x y : Bf16) :
    divExponent x y =
      (exponent x : Int) - exponent y + 127 - (if exponent x = 0 then 1 else 0) + (if exponent y = 0 then 1 else 0) := by
  simp only [divExponent]
  split_ifs <;> omega

/-- R204 to R208: the closed form of the quotient. -/
theorem divFinite_eq (hx : finiteNonzero x = true) (hy : finiteNonzero y = true) :
    divFinite (sign x ^^^ sign y) x y = quotientFinite x y := by
  have hq := divQuotient_eq (restoredMantissa_pos hy) (restoredMantissa x)
  have h0 := divQuotient_pos (restoredMantissa_pos hx) (restoredMantissa_pos hy) (restoredMantissa_lt y)
  simp only [divFinite, quotientFinite, ← hq, ← divExponent_eq, shiftRight_and_mask]
  have hlt : divQuotient (restoredMantissa x) (restoredMantissa y) < 2 ^ 16 := by omega
  generalize divQuotient (restoredMantissa x) (restoredMantissa y) = q at h0 hlt ⊢
  by_cases htop : 2 ^ 15 ≤ q
  · simp only [if_pos htop, if_pos (show 0x8000 ≤ q from htop), divRange, Nat.cast_zero, Int.sub_zero, pow_zero, Nat.mul_one]
    rfl
  · simp only [if_neg htop, if_neg (show ¬ 0x8000 ≤ q from htop),
      normaliseQuotient_done (k := 15) (Nat.ne_of_gt h0) hlt (Nat.sub_le _ _), divRange]
    rfl

/-- R202, R203: no test for a special value holds. -/
theorem bf16Div_of_finite (hx : finiteNonzero x = true) (hy : finiteNonzero y = true) :
    bf16Div c x y = divFinite (sign x ^^^ sign y) x y := by
  simp only [bf16Div, isNan_eq_false_of_finite hx, isNan_eq_false_of_finite hy, isInf_eq_false_of_finite hx,
    isInf_eq_false_of_finite hy, isZero_eq_false_of_finite hx, isZero_eq_false_of_finite hy, Bool.false_eq_true, if_false]

/-! ### The pattern of a quotient -/

/-- Every finite quotient is one of R208's three outcomes. -/
theorem divFinite_eq_divRange (rs : BitVec 1) (x y : Bf16) : ∃ (rm : Nat) (re : Int), divFinite rs x y = divRange rs rm re := by
  simp only [divFinite]
  split
  · exact ⟨_, _, rfl⟩
  · exact ⟨_, _, rfl⟩

theorem sign_divRange (rs : BitVec 1) (rm : Nat) (re : Int) : sign (divRange rs rm re) = rs := by
  rw [divRange]
  split_ifs
  · exact sign_infinity rs
  · exact sign_signedZero rs
  · exact sign_pack _ _ _

theorem isSubnormal_infinity (s : BitVec 1) : isSubnormal (infinity s) = false := by simp [isSubnormal, infinity]

theorem isSubnormal_signedZero (s : BitVec 1) : isSubnormal (signedZero s) = false := by simp [isSubnormal, signedZero]

theorem isSubnormal_eq_false_of_isNan {v : Bf16} (h : isNan v = true) : isSubnormal v = false := by
  obtain ⟨he, -⟩ := (isNan_iff v).1 h
  simp [isSubnormal, he]

/-- R208: what is packed has an exponent field from 1 to 254. -/
theorem isSubnormal_divRange (rs : BitVec 1) (rm : Nat) (re : Int) : isSubnormal (divRange rs rm re) = false := by
  rw [divRange]
  split_ifs
  · exact isSubnormal_infinity rs
  · exact isSubnormal_signedZero rs
  · refine Bool.eq_false_iff.2 fun hsub => ?_
    obtain ⟨he, -⟩ := (isSubnormal_iff _).1 hsub
    rw [exponent_pack] at he
    omega

/-- R208, over all operands. -/
theorem isSubnormal_bf16Div (hc : isNan c = true) (x y : Bf16) : isSubnormal (bf16Div c x y) = false := by
  by_cases hfinite : finiteNonzero x = true ∧ finiteNonzero y = true
  · obtain ⟨rm, re, h⟩ := divFinite_eq_divRange (sign x ^^^ sign y) x y
    rw [bf16Div_of_finite hfinite.1 hfinite.2, h, isSubnormal_divRange]
  · rw [not_and_or, Bool.not_eq_true, Bool.not_eq_true] at hfinite
    rw [bf16Div_of_special hfinite]
    split_ifs with hx hy
    · exact isSubnormal_eq_false_of_isNan hx
    · exact isSubnormal_eq_false_of_isNan hy
    · exact isSubnormal_eq_false_of_isNan hc
    · exact isSubnormal_signedZero _
    · exact isSubnormal_infinity _

/-- R210: a quotient that is neither a NaN operand nor `CANON_NAN` has the sign of R201. -/
theorem sign_bf16Div (hc : isNan c = true) (hv : isNan (bf16Div c x y) = false) : sign (bf16Div c x y) = sign x ^^^ sign y := by
  by_cases hfinite : finiteNonzero x = true ∧ finiteNonzero y = true
  · obtain ⟨rm, re, h⟩ := divFinite_eq_divRange (sign x ^^^ sign y) x y
    rw [bf16Div_of_finite hfinite.1 hfinite.2, h, sign_divRange]
  · rw [not_and_or, Bool.not_eq_true, Bool.not_eq_true] at hfinite
    rw [bf16Div_of_special hfinite] at hv ⊢
    split_ifs at hv ⊢ with hx hy
    · simp [hx] at hv
    · simp [hy] at hv
    · simp [hc] at hv
    · exact sign_signedZero _
    · exact sign_infinity _

/-- R209: equal mantissas give the quotient `2^15`, equal exponents the biased exponent 127. -/
theorem bf16Div_self (hx : finiteNonzero x = true) : bf16Div c x x = 0x3F80#16 := by
  have hpos := restoredMantissa_pos hx
  have hlt := restoredMantissa_lt x
  have hq : divQuotient (restoredMantissa x) (restoredMantissa x) = 2 ^ 15 := by
    rw [divQuotient_eq_ite hpos, if_pos (by omega), Nat.mul_div_cancel_left _ hpos]
  have hre : divExponent x x = 127 := by
    rw [divExponent_eq]
    omega
  rw [bf16Div_of_finite hx hx]
  simp only [divFinite, hq, hre, BitVec.xor_self]
  decide

end quotients

end Sys2Proof.Machine

/-! ### The statements -/

section
open Sys2Proof Sys2Proof.Machine

/-- Settles O50: the loop as a division, which leaves 16 bits exactly where the dividend is at least twice the divisor. -/
theorem divQuotientSaturates : Obligations.DivQuotientSaturates :=
  fun ma _ hma _ hmb hlt =>
    ⟨divQuotient_eq_ite hmb ma, Nat.ne_of_gt (divQuotient_pos hma hmb (Nat.lt_succ_of_le hlt))⟩

/-- Settles O51: the quotient in closed form. -/
theorem divFiniteQuotient : Obligations.DivFiniteQuotient := by
  intro a b s ha hb
  rw [exec_bf16Div, bf16Div_of_finite ha hb, divFinite_eq ha hb]

/-- Settles O52: no outcome of R202, R203 and R208 is subnormal. -/
theorem divNeverSubnormal : Obligations.DivNeverSubnormal :=
  fun a b s hc => ⟨_, exec_bf16Div a b s, isSubnormal_bf16Div hc _ _⟩

/-- Settles O53: 1.0, from the equal fields. -/
theorem divBySelfIsOne : Obligations.DivBySelfIsOne := by
  intro a b s ha hab
  rw [exec_bf16Div, hab, bf16Div_self ha]
  rfl

/-- Settles O54: every outcome that is no NaN is formed with the exclusive or of the signs. -/
theorem productAndQuotientSigns : Obligations.ProductAndQuotientSigns :=
  fun a b s hc => ⟨_, _, exec_bf16Mul a b s, exec_bf16Div a b s, sign_bf16Mul hc, sign_bf16Div hc⟩

end
end

section
/-! PROOFS. RSQRT for every table: the initial guess by the position of the top set bit, the entries it reads, the two passes, and the
statements O56, O57 and O58 (45_rsqrt.md R220, R224, R225; 20_memory.md R51) that follow. -/

namespace Sys2Proof.Machine

section guess
variable {rom rom' : Vector Word 32} {x : Word} {e : Fin 32}

/-! ### The index -/

/-- R223: the input stands in one interval between powers of two. -/
theorem topBitIndex_eq (hle : 2 ^ e.val ≤ x.toNat) (hlt : x.toNat < 2 ^ (e.val + 1)) : topBitIndex x = e := by
  have hpos : 0 < x.toNat := lt_of_lt_of_le (by positivity) hle
  have hne : x ≠ 0#32 := by
    rintro rfl
    exact absurd hpos (Nat.lt_irrefl 0)
  exact Fin.ext ((topBitIndex_val x hne).trans ((Nat.log2_eq_iff (Nat.ne_of_gt hpos)).2 ⟨hle, hlt⟩))

/-- The test of step 4: is the input exactly `2^e`? -/
theorem eq_one_shiftLeft_iff (x : Word) (e : Fin 32) : x = 1#32 <<< e.val ↔ x.toNat = 2 ^ e.val := by
  have hlt : 2 ^ e.val < 2 ^ 32 := Nat.pow_lt_pow_right (by omega) e.isLt
  have hval : (1#32 <<< e.val).toNat = 2 ^ e.val := by
    rw [BitVec.toNat_shiftLeft, Nat.shiftLeft_eq]
    change 1 * 2 ^ e.val % 2 ^ 32 = _
    rw [Nat.one_mul, Nat.mod_eq_of_lt hlt]
  rw [← BitVec.toNat_inj, hval]

/-! ### Interpolation -/

/-- R224: `x - 2^e < 2^e`. -/
theorem fractionNat_lt {x e : Nat} (h : x < 2 ^ (e + 1)) : fractionNat x e < 2 ^ 16 := by
  have hpow : 2 ^ (e + 1) = 2 * 2 ^ e := by rw [pow_succ, Nat.mul_comm]
  have hpos : 0 < 2 ^ e := by positivity
  exact Nat.div_lt_of_lt_mul (Nat.mul_lt_mul_of_pos_right (by omega) (by norm_num))

/-- R224: weighted by less than 1, the truncated product does not exceed the whole step. -/
theorem mul_fraction_div_le (delta : Nat) {frac : Nat} (hf : frac < 2 ^ 16) : delta * frac / 2 ^ 16 ≤ delta :=
  Nat.div_le_of_le_mul (by rw [Nat.mul_comm]; exact Nat.mul_le_mul_right _ hf.le)

/-- R224: toward an entry that is not larger, neither subtraction goes below 0. -/
theorem interpolateNat_of_le {y yNext frac : Nat} (hy : y < 2 ^ 32) (hle : yNext ≤ y) (hf : frac < 2 ^ 16) :
    interpolateNat y yNext frac = y - (y - yNext) * frac / 2 ^ 16 := by
  have hdelta : (y + 2 ^ 32 - yNext) % 2 ^ 32 = y - yNext := by omega
  have hamount := mul_fraction_div_le (y - yNext) hf
  simp only [interpolateNat, hdelta]
  omega

/-! ### The guess -/

/-- R220 step 3: at an exact power of two. -/
theorem initialGuess_of_eq (hx : x.toNat = 2 ^ e.val) : initialGuess rom x = rom[e] := by
  have hindex : topBitIndex x = e := topBitIndex_eq hx.ge (hx ▸ Nat.pow_lt_pow_right (by omega) (by omega))
  simp only [initialGuess, hindex, ne_eq, eq_one_shiftLeft_iff, hx, not_true_eq_false, if_false]
  rfl

/-- R220 step 4: elsewhere. -/
theorem initialGuess_of_ne (hle : 2 ^ e.val ≤ x.toNat) (hlt : x.toNat < 2 ^ (e.val + 1)) (hx : x.toNat ≠ 2 ^ e.val) :
    (initialGuess rom x).toNat = interpolateNat rom[e].toNat (nextEntry rom e).toNat (fractionNat x.toNat e.val) := by
  have hf : fractionNat x.toNat e.val < 2 ^ 32 := lt_trans (fractionNat_lt hlt) (by norm_num)
  simp only [initialGuess, topBitIndex_eq hle hlt, ne_eq, eq_one_shiftLeft_iff, hx, not_false_eq_true, if_true, fraction_eq]
  exact interpolate_toNat _ _ _ hf

/-- R224: the plain formula. -/
theorem initialGuess_of_nextEntry_le (hle : 2 ^ e.val ≤ x.toNat) (hlt : x.toNat < 2 ^ (e.val + 1)) (hx : x.toNat ≠ 2 ^ e.val)
    (hnext : (nextEntry rom e).toNat ≤ rom[e].toNat) :
    (initialGuess rom x).toNat =
      rom[e].toNat - (rom[e].toNat - (nextEntry rom e).toNat) * fractionNat x.toNat e.val / 2 ^ 16 := by
  rw [initialGuess_of_ne hle hlt hx, interpolateNat_of_le rom[e].isLt hnext (fractionNat_lt hlt)]

/-! ### The entries read -/

/-- R51: the next entry is read only below the top of the table. -/
theorem nextEntry_congr (h : ∀ n : Fin 32, n.val = e.val + 1 → rom[n] = rom'[n]) : nextEntry rom e = nextEntry rom' e := by
  unfold nextEntry
  split
  · exact h _ rfl
  · rfl

/-- R51: the guess depends on the entry at the top set bit, and on the next one only where it interpolates. -/
theorem initialGuess_congr (hx : x ≠ 0#32) (htop : ∀ n : Fin 32, n.val = Nat.log2 x.toNat → rom[n] = rom'[n])
    (hnext : ∀ n : Fin 32, n.val = Nat.log2 x.toNat + 1 → x.toNat ≠ 2 ^ Nat.log2 x.toNat → rom[n] = rom'[n]) :
    initialGuess rom x = initialGuess rom' x := by
  have hindex := topBitIndex_val x hx
  have hentry : romEntry rom (topBitIndex x) = romEntry rom' (topBitIndex x) := htop _ hindex
  have htest := eq_one_shiftLeft_iff x (topBitIndex x)
  rw [hindex] at htest
  simp only [initialGuess, ne_eq, hindex, htest, hentry]
  by_cases hpow : x.toNat = 2 ^ Nat.log2 x.toNat
  · rw [if_neg (not_not.2 hpow), if_neg (not_not.2 hpow)]
  · rw [if_pos hpow, if_pos hpow, nextEntry_congr fun n hn => hnext n (by rw [hn, hindex]) hpow]

/-! ### The whole function -/

/-- R220 step 5: past the special inputs, two passes over the guess. -/
theorem rsqrt_of_two_le (hx : 2 ≤ x.toNat) (rom : Vector Word 32) :
    rsqrt rom x = newtonPass x (newtonPass x (initialGuess rom x)) := by
  have h0 : x ≠ 0#32 := by
    rintro rfl
    exact absurd hx (by decide)
  have h1 : x ≠ 1#32 := by
    rintro rfl
    exact absurd hx (by decide)
  rw [rsqrt, if_neg h0, if_neg h1]

theorem rsqrt_congr (x : Word) (htop : ∀ n : Fin 32, n.val = Nat.log2 x.toNat → rom[n] = rom'[n])
    (hnext : ∀ n : Fin 32, n.val = Nat.log2 x.toNat + 1 → x.toNat ≠ 2 ^ Nat.log2 x.toNat → rom[n] = rom'[n]) :
    rsqrt rom x = rsqrt rom' x := by
  by_cases hx : x = 0#32
  · rw [hx, rsqrt_zero, rsqrt_zero]
  · rw [rsqrt, rsqrt, initialGuess_congr hx htop hnext]

/-- R73: the response of RSQRT as a number. -/
theorem exec_rsqrt_toNat (a b : Word) (s : State) :
    exec (.rsqrt a b) s = .next { s with
      rQ := BitVec.ofNat 64 (rsqrt s.rom a).toNat, flagQ := false, illegalQ := false, st := .done } := by
  rw [exec_rsqrt, BitVec.ofNat_toNat]

end guess

end Sys2Proof.Machine

/-! ### The statements -/

section
open Sys2Proof Sys2Proof.Machine

/-- Settles O56: the two passes, each as a number. -/
theorem rsqrtTwoNewtonPasses : Obligations.RsqrtTwoNewtonPasses := by
  intro a b s ha
  rw [exec_rsqrt_toNat, rsqrt_of_two_le ha, newtonPass_toNat, newtonPass_toNat]

/-- Settles O57: the guess at a power of two and elsewhere. -/
theorem rsqrtInitialGuess : Obligations.RsqrtInitialGuess :=
  fun _ _ _ hle hlt => ⟨initialGuess_of_eq, initialGuess_of_ne hle hlt, initialGuess_of_nextEntry_le hle hlt⟩

/-- Settles O58: the table enters the response through the guess alone. -/
theorem rsqrtReadsTwoEntries : Obligations.RsqrtReadsTwoEntries := by
  intro a b s rom htop hnext
  refine ⟨_, exec_rsqrt a b s, ?_⟩
  rw [exec_rsqrt, rsqrt_congr a htop hnext]

end
end

section
/-! PROOFS. RSQRT with the default table: the ranges of the table's entries, a pass whose intermediates fit their words and what it leaves
for the next one, the fixed points at powers of four, and the statements O59 and O60 (45_rsqrt.md R222 to R228) that follow. -/

namespace Sys2Proof.Machine

/-! ### A pass that discards no bit -/

/-- One Newton-Raphson pass with no word width: the formula of R225. -/
def newtonPlain (x y : Nat) : Nat := y * (3 * 2 ^ 16 - x * (y * y) / 2 ^ 16) / 2 ^ 17

/-- The square fits 32 bits, and the rescaled product does not exceed 3 in Q16.16 (R225). -/
structure FitsPass (x y : Nat) : Prop where
  square : y * y < 2 ^ 32
  scaled : x * (y * y) / 2 ^ 16 ≤ 3 * 2 ^ 16

/-- R225: where the intermediates fit, no `low_32` of the pass discards a bit. -/
theorem newtonNat_eq_newtonPlain {x y : Nat} (h : FitsPass x y) : newtonNat x y = newtonPlain x y := by
  obtain ⟨hsq, hscaled⟩ := h
  have hy : y < 2 ^ 16 := Nat.mul_self_lt_mul_self_iff.1 (by omega)
  have hsub : (3 * 2 ^ 16 + 2 ^ 32 - x * (y * y) / 2 ^ 16) % 2 ^ 32 = 3 * 2 ^ 16 - x * (y * y) / 2 ^ 16 := by omega
  have hprod : y * (3 * 2 ^ 16 - x * (y * y) / 2 ^ 16) ≤ 2 ^ 16 * (3 * 2 ^ 16) :=
    Nat.mul_le_mul hy.le (Nat.sub_le _ _)
  simp only [newtonNat, newtonPlain, Nat.mod_eq_of_lt hsq, Nat.mod_eq_of_lt (show x * (y * y) / 2 ^ 16 < 2 ^ 32 by omega), hsub]
  exact Nat.mod_eq_of_lt (by omega)

/-- The product of a part and the square of the rest is largest where the part is a third. -/
theorem mul_sq_le_of_add_eq {a w n : Nat} (h : a + w = n) : 27 * (a * (w * w)) ≤ 4 * n ^ 3 := by
  subst h
  zify
  nlinarith [mul_nonneg (sq_nonneg ((w : Int) - 2 * a)) (by positivity : (0 : Int) ≤ a + 4 * w)]

/-- R225: whatever fits a pass, the pass brings `x * y^2` below 2, in units of `2^32`. With `u` for the product before the pass it is
`u * (3 - u)^2 / 4` but for the truncations, which is at most 1. -/
theorem mul_newtonPlain_sq_lt {x y : Nat} (h : FitsPass x y) : x * (newtonPlain x y * newtonPlain x y) < 2 ^ 33 := by
  obtain ⟨-, hscaled⟩ := h
  have hpass : newtonPlain x y * 2 ^ 17 ≤ y * (3 * 2 ^ 16 - x * (y * y) / 2 ^ 16) := Nat.div_mul_le_self _ _
  have htrunc : x * (y * y) ≤ (x * (y * y) / 2 ^ 16 + 1) * 2 ^ 16 := by omega
  generalize x * (y * y) / 2 ^ 16 = m at hscaled hpass htrunc
  have hmax := mul_sq_le_of_add_eq (a := m + 1) (w := 3 * 2 ^ 16 - m) (n := 3 * 2 ^ 16 + 1) (by omega)
  generalize 3 * 2 ^ 16 - m = w at hpass hmax
  generalize newtonPlain x y = z at hpass ⊢
  have hscale : x * (z * z) * 2 ^ 34 ≤ (m + 1) * (w * w) * 2 ^ 16 :=
    calc x * (z * z) * 2 ^ 34 = x * (z * 2 ^ 17 * (z * 2 ^ 17)) := by ring
      _ ≤ x * (y * w * (y * w)) := Nat.mul_le_mul_left x (Nat.mul_le_mul hpass hpass)
      _ = x * (y * y) * (w * w) := by ring
      _ ≤ (m + 1) * 2 ^ 16 * (w * w) := Nat.mul_le_mul_right _ htrunc
      _ = (m + 1) * (w * w) * 2 ^ 16 := Nat.mul_right_comm _ _ _
  omega

/-- R225: what a pass leaves fits the next one. -/
theorem fitsPass_newtonPlain {x y : Nat} (hx : 2 ≤ x) (h : FitsPass x y) : FitsPass x (newtonPlain x y) := by
  have hlt := mul_newtonPlain_sq_lt h
  have htwo := Nat.mul_le_mul_right (newtonPlain x y * newtonPlain x y) hx
  exact ⟨by omega, by omega⟩

/-! ### The default table -/

/-- R222, R224: from index 1 on, the table falls strictly, in steps of at most 13573, each small enough for its product with the
largest fraction; and no entry's square is far above `2^32 / 2^e`. -/
theorem rsqrtTableDefault_ranges : ∀ e : Fin 32, 1 ≤ e.val →
    (nextEntry rsqrtTableDefault e).toNat < rsqrtTableDefault[e].toNat ∧ rsqrtTableDefault[e].toNat ≤ 46341 ∧
    rsqrtTableDefault[e].toNat - (nextEntry rsqrtTableDefault e).toNat ≤ 13573 ∧
    (rsqrtTableDefault[e].toNat - (nextEntry rsqrtTableDefault e).toNat) * (2 ^ e.val - 1) < 2 ^ 13 * 2 ^ e.val ∧
    2 ^ (e.val + 1) * (rsqrtTableDefault[e].toNat * rsqrtTableDefault[e].toNat) ≤ 3 * 2 ^ 32 := by decide

/-- R224: the input stands at most `2^e - 1` above `2^e`. -/
theorem mul_fractionNat_lt {delta x e : Nat} (hx : x < 2 ^ (e + 1)) (hdelta : delta * (2 ^ e - 1) < 2 ^ 13 * 2 ^ e) :
    delta * fractionNat x e < 2 ^ 29 := by
  have hpow : 2 ^ (e + 1) = 2 * 2 ^ e := by rw [pow_succ, Nat.mul_comm]
  have hpos : 0 < 2 ^ e := by positivity
  have hfrac : fractionNat x e * 2 ^ e ≤ (2 ^ e - 1) * 2 ^ 16 :=
    (Nat.div_mul_le_self _ _).trans (Nat.mul_le_mul_right _ (by omega))
  have hmul := Nat.mul_le_mul_left delta hfrac
  rw [← Nat.mul_assoc, ← Nat.mul_assoc] at hmul
  exact Nat.lt_of_mul_lt_mul_right (a := 2 ^ e) (by omega)

section defaultTable
variable {x : Word} {e : Fin 32}

/-- R223: an input from 2 on has its top set bit at 1 or above. -/
theorem exists_topBit (hx : 2 ≤ x.toNat) : ∃ e : Fin 32, 1 ≤ e.val ∧ 2 ^ e.val ≤ x.toNat ∧ x.toNat < 2 ^ (e.val + 1) := by
  have h0 : x.toNat ≠ 0 := by omega
  obtain ⟨hle, hlt⟩ := (Nat.log2_eq_iff h0).1 rfl
  exact ⟨⟨Nat.log2 x.toNat, log2_lt_of_lt h0 x.isLt⟩, le_log2_of_le (k := 1) h0 hx, hle, hlt⟩

theorem one_le_of_two_le_of_lt {x e : Nat} (hx : 2 ≤ x) (hlt : x < 2 ^ (e + 1)) : 1 ≤ e := by
  rcases Nat.eq_zero_or_pos e with rfl | hpos
  · omega
  · exact hpos

/-- R224: the guess stands above 0 and no higher than its entry. -/
theorem initialGuess_default_bounds (he : 1 ≤ e.val) (hle : 2 ^ e.val ≤ x.toNat) (hlt : x.toNat < 2 ^ (e.val + 1)) :
    1 ≤ (initialGuess rsqrtTableDefault x).toNat ∧ (initialGuess rsqrtTableDefault x).toNat ≤ rsqrtTableDefault[e].toNat := by
  obtain ⟨hnext, -⟩ := rsqrtTableDefault_ranges e he
  by_cases hpow : x.toNat = 2 ^ e.val
  · rw [initialGuess_of_eq hpow]
    exact ⟨by omega, Nat.le_refl _⟩
  · have hamount : (rsqrtTableDefault[e].toNat - (nextEntry rsqrtTableDefault e).toNat) * fractionNat x.toNat e.val / 2 ^ 16 <
        rsqrtTableDefault[e].toNat - (nextEntry rsqrtTableDefault e).toNat :=
      Nat.div_lt_of_lt_mul (by rw [Nat.mul_comm]; exact Nat.mul_lt_mul_of_pos_right (fractionNat_lt hlt) (by omega))
    rw [initialGuess_of_nextEntry_le hle hlt hpow hnext.le]
    omega

/-- R225: the guess fits the first pass, since the whole interval stands below `2^(e+1)`. -/
theorem fitsPass_initialGuess_default (hx : 2 ≤ x.toNat) : FitsPass x.toNat (initialGuess rsqrtTableDefault x).toNat := by
  obtain ⟨e, he, hle, hlt⟩ := exists_topBit hx
  obtain ⟨-, hmax, -, -, hsq⟩ := rsqrtTableDefault_ranges e he
  obtain ⟨-, hy⟩ := initialGuess_default_bounds he hle hlt
  have hyy := Nat.mul_le_mul hy hy
  have hxyy := Nat.mul_le_mul hlt.le hyy
  have hmm := Nat.mul_le_mul hmax hmax
  exact ⟨by omega, by omega⟩

/-- R224: step 4 discards no bit. -/
theorem interpolation_default (he : 1 ≤ e.val) (hle : 2 ^ e.val ≤ x.toNat) (hlt : x.toNat < 2 ^ (e.val + 1))
    (hpow : x.toNat ≠ 2 ^ e.val) :
    (nextEntry rsqrtTableDefault e).toNat ≤ rsqrtTableDefault[e].toNat ∧
      rsqrtTableDefault[e].toNat - (nextEntry rsqrtTableDefault e).toNat ≤ 13573 ∧ fractionNat x.toNat e.val < 2 ^ 16 ∧
      (rsqrtTableDefault[e].toNat - (nextEntry rsqrtTableDefault e).toNat) * fractionNat x.toNat e.val < 2 ^ 29 ∧
      (rsqrtTableDefault[e].toNat - (nextEntry rsqrtTableDefault e).toNat) * fractionNat x.toNat e.val / 2 ^ 16 ≤
        rsqrtTableDefault[e].toNat ∧
      (initialGuess rsqrtTableDefault x).toNat = rsqrtTableDefault[e].toNat -
        (rsqrtTableDefault[e].toNat - (nextEntry rsqrtTableDefault e).toNat) * fractionNat x.toNat e.val / 2 ^ 16 := by
  obtain ⟨hnext, -, hdelta, hprod, -⟩ := rsqrtTableDefault_ranges e he
  have hfrac := fractionNat_lt hlt
  exact ⟨hnext.le, hdelta, hfrac, mul_fractionNat_lt hlt hprod, (mul_fraction_div_le _ hfrac).trans (Nat.sub_le _ _),
    initialGuess_of_nextEntry_le hle hlt hpow hnext.le⟩

/-- R225: both passes start from a value that fits. -/
theorem fitsPass_default (hx : 2 ≤ x.toNat) {y : Word}
    (hy : y = initialGuess rsqrtTableDefault x ∨ y = newtonPass x (initialGuess rsqrtTableDefault x)) :
    FitsPass x.toNat y.toNat := by
  have hguess := fitsPass_initialGuess_default hx
  rcases hy with rfl | rfl
  · exact hguess
  · rw [newtonPass_toNat, newtonNat_eq_newtonPlain hguess]
    exact fitsPass_newtonPlain hx hguess

end defaultTable

/-! ### Powers of four -/

/-- R228: an exact root is a fixed point of the pass. -/
theorem newtonPass_of_exact_root {x y : Word} (hx : 2 ≤ x.toNat) (h : x.toNat * (y.toNat * y.toNat) = 2 ^ 32) :
    newtonPass x y = y := by
  have htwo := Nat.mul_le_mul_right (y.toNat * y.toNat) hx
  have hfits : FitsPass x.toNat y.toNat := ⟨by omega, by omega⟩
  apply BitVec.eq_of_toNat_eq
  rw [newtonPass_toNat, newtonNat_eq_newtonPlain hfits, newtonPlain, h]
  exact Nat.mul_div_cancel _ (by norm_num)

/-- R222: the entries at even indices are exact. -/
theorem rsqrtTableDefault_even : ∀ k : Fin 16, rsqrtTableDefault[(⟨2 * k.val, by omega⟩ : Fin 32)].toNat = 2 ^ (16 - k.val) := by
  decide

/-- R228: the table's entry for `2^(2k)` is its exact root, which both passes keep. -/
theorem rsqrt_default_four_pow {k : Nat} (h1 : 1 ≤ k) (hk : k ≤ 15) :
    (rsqrt rsqrtTableDefault (BitVec.ofNat 32 (2 ^ (2 * k)))).toNat = 2 ^ (16 - k) := by
  have hval : (BitVec.ofNat 32 (2 ^ (2 * k))).toNat = 2 ^ (2 * k) := by
    rw [BitVec.toNat_ofNat, Nat.mod_eq_of_lt (Nat.pow_lt_pow_right (by omega) (by omega))]
  have htwo : 2 ≤ (BitVec.ofNat 32 (2 ^ (2 * k))).toNat := by
    rw [hval]
    exact Nat.pow_le_pow_right (n := 2) (by omega) (by omega : 1 ≤ 2 * k)
  have hguess : (initialGuess rsqrtTableDefault (BitVec.ofNat 32 (2 ^ (2 * k)))).toNat = 2 ^ (16 - k) := by
    rw [initialGuess_of_eq (e := ⟨2 * k, by omega⟩) hval]
    exact rsqrtTableDefault_even ⟨k, by omega⟩
  have hroot : 2 ^ (2 * k) * (2 ^ (16 - k) * 2 ^ (16 - k)) = 2 ^ 32 := by
    rw [← pow_add, ← pow_add]
    congr 1
    omega
  have hfixed := newtonPass_of_exact_root (y := initialGuess rsqrtTableDefault _) htwo (by rw [hval, hguess, hroot])
  rw [rsqrt_of_two_le htwo, hfixed, hfixed, hguess]

end Sys2Proof.Machine

/-! ### The statements -/

section
open Sys2Proof Sys2Proof.Machine

/-- Settles O59: the table's ranges bound the guess, the guess fits the first pass, and a pass leaves what fits the next. -/
theorem rsqrtPassesNeverWrap : Obligations.RsqrtPassesNeverWrap := by
  intro x hx
  obtain ⟨e, he, hle, hlt⟩ := exists_topBit hx
  obtain ⟨-, hmax, -⟩ := rsqrtTableDefault_ranges e he
  obtain ⟨hpos, hguess⟩ := initialGuess_default_bounds he hle hlt
  refine ⟨fun n hle' hlt' => interpolation_default (one_le_of_two_le_of_lt hx hlt') hle' hlt', hpos, hguess.trans hmax,
    fun y hy => ?_⟩
  have hfits := fitsPass_default hx hy
  exact ⟨hfits.square, hfits.scaled, (newtonPass_toNat x y).trans (newtonNat_eq_newtonPlain hfits)⟩

/-- Settles O60: the exact entry, twice a fixed point. -/
theorem rsqrtPowersOfFourExact : Obligations.RsqrtPowersOfFourExact := by
  intro k b s h1 hk hrom
  rw [exec_rsqrt_toNat, hrom, rsqrt_default_four_pow h1 hk]

end
end
